-- ==== Sys2Proof/Word.lean ====
section
/-! DEFINITION. The word types of the core: bytes, 16-bit words, and the exact-width operand fields of R46 and R48. -/

namespace Sys2Proof

/-- One byte of memory or one general register (R20, R27). -/
abbrev Byte := BitVec 8

/-- A 16-bit word: an instruction word (R10), `pc` (R19), `I` (R21), a stack entry (R22). -/
abbrev Word := BitVec 16

/-- A 4-bit register field `x` or `y`, naming V0..VF (R46, R48). -/
abbrev Reg := BitVec 4

/-- A 4-bit count, the sprite height `n` (R46, R48). -/
abbrev Nibble := BitVec 4

/-- A 12-bit address field `nnn` (R46, R48). -/
abbrev Addr := BitVec 12

/-- A 4-bit key code (R121). -/
abbrev Key := BitVec 4

end Sys2Proof
end

