-- ==== Sys2Proof/Syntax.lean ====
section
/-! DEFINITION. The decoded instruction: the closed variant of R52, one constructor per row of the opcode map (R51), each
carrying exactly the fields of its format (R47). -/

namespace Sys2Proof

/-- The 35 instructions, in the order of R51. -/
inductive Instr where
  | nop
  | cls
  | ret
  | jp (nnn : Addr)
  | call (nnn : Addr)
  | ldI (nnn : Addr)
  | jpV0 (nnn : Addr)
  | seImm (x : Reg) (kk : Byte)
  | sneImm (x : Reg) (kk : Byte)
  | ldImm (x : Reg) (kk : Byte)
  | addImm (x : Reg) (kk : Byte)
  | rnd (x : Reg) (kk : Byte)
  | seReg (x y : Reg)
  | sneReg (x y : Reg)
  | ldReg (x y : Reg)
  | or (x y : Reg)
  | and (x y : Reg)
  | xor (x y : Reg)
  | addReg (x y : Reg)
  | sub (x y : Reg)
  | shr (x y : Reg)
  | subn (x y : Reg)
  | shl (x y : Reg)
  | drw (x y : Reg) (n : Nibble)
  | skp (x : Reg)
  | sknp (x : Reg)
  | ldVxDt (x : Reg)
  | ldVxK (x : Reg)
  | ldDtVx (x : Reg)
  | ldStVx (x : Reg)
  | addIVx (x : Reg)
  | ldFVx (x : Reg)
  | ldBVx (x : Reg)
  | ldMemVx (x : Reg)
  | ldVxMem (x : Reg)
deriving DecidableEq, Repr

end Sys2Proof
end

