-- ==== Sys2Proof/WellFormed.lean ====
section
/-! DEFINITION. Well-formedness. An instruction's fields have exactly the widths of R52, so no ill-formed instruction can be
written; `Instr.wellFormed` says the ranges of R48 as a check. What can be ill-formed is a WORD: `legalWord` says, group by
group and without the decoder, which words R53 calls legal. -/

namespace Sys2Proof

/-- The operand ranges of R48: `nnn` in 0..0xFFF, `kk` in 0..255, `n`, `x` and `y` in 0..15. The field types of R52 already
enforce every one of them. -/
def Instr.wellFormed : Instr → Bool
  | .nop | .cls | .ret => true
  | .jp nnn | .call nnn | .ldI nnn | .jpV0 nnn => decide (nnn.toNat ≤ 0xFFF)
  | .seImm x kk | .sneImm x kk | .ldImm x kk | .addImm x kk | .rnd x kk => decide (x.toNat ≤ 15 ∧ kk.toNat ≤ 255)
  | .seReg x y | .sneReg x y | .ldReg x y | .or x y | .and x y | .xor x y | .addReg x y | .sub x y | .shr x y
  | .subn x y | .shl x y => decide (x.toNat ≤ 15 ∧ y.toNat ≤ 15)
  | .drw x y n => decide (x.toNat ≤ 15 ∧ y.toNat ≤ 15 ∧ n.toNat ≤ 15)
  | .skp x | .sknp x | .ldVxDt x | .ldVxK x | .ldDtVx x | .ldStVx x | .addIVx x | .ldFVx x | .ldBVx x | .ldMemVx x
  | .ldVxMem x => decide (x.toNat ≤ 15)

/-- Group 0: only 0x0000, 0x00E0 and 0x00EE are legal (R53, R54). -/
def legalGroup0 (w : Nat) : Bool := w == 0x0000 || w == 0x00E0 || w == 0x00EE

/-- Groups 5 and 9: only a low nibble of 0 is legal (R53, R55). -/
def legalGroup59 (w : Nat) : Bool := w % 16 == 0

/-- Group 8: the low nibbles 8, 9, A, B, C, D and F are illegal (R53). -/
def legalGroup8 (w : Nat) : Bool := !([0x8, 0x9, 0xA, 0xB, 0xC, 0xD, 0xF].contains (w % 16))

/-- Group E: only the low bytes 9E and A1 are legal (R53). -/
def legalGroupE (w : Nat) : Bool := [0x9E, 0xA1].contains (w % 256)

/-- Group F: only the nine listed suffixes are legal (R53, R56). -/
def legalGroupF (w : Nat) : Bool :=
  [0x07, 0x0A, 0x15, 0x18, 0x1E, 0x29, 0x33, 0x55, 0x65].contains (w % 256)

/-- The legal words: all but the six groups of R53, by the top nibble. -/
def legalWord (w : Word) : Bool :=
  match w.toNat / 4096 with
  | 0x0 => legalGroup0 w.toNat
  | 0x5 => legalGroup59 w.toNat
  | 0x8 => legalGroup8 w.toNat
  | 0x9 => legalGroup59 w.toNat
  | 0xE => legalGroupE w.toNat
  | 0xF => legalGroupF w.toNat
  | _ => true

end Sys2Proof
end

