-- ==== Sys2Proof/Config.lean ====
section
/-! DEFINITION. What an implementation fixes: the sizes of R8, the open parameters of R9, and the free value of RND. -/

namespace Sys2Proof

/-- Which register the shifts read (R9, R90). -/
inductive ShiftSource where
  /-- `SHIFT_SOURCE = VX`: the shift reads `V[x]` and ignores `y`. -/
  | vx
  /-- `SHIFT_SOURCE = VY`: the shift reads `V[y]`. -/
  | vy
deriving DecidableEq, Repr, Inhabited

/-- `MEM_SIZE`, bytes of memory (R8). -/
def Config.memSize : Nat := 4096

/-- `STACK_DEPTH`, return addresses (R8). -/
def Config.stackDepth : Nat := 16

/-- `FB_W`, pixels of a framebuffer row (R8). -/
def Config.fbW : Nat := 64

/-- `FB_H`, framebuffer rows (R8). -/
def Config.fbH : Nat := 32

/-- `PROGRAM_START`, where a ROM is placed and `pc` starts (R8, R19, R131). -/
def Config.programStart : Nat := 0x200

/-- `FONT_BASE`, the address of glyph 0 (R8). -/
def Config.fontBase : Nat := 0x000

/-- `GLYPH_BYTES`, bytes of one glyph (R8). -/
def Config.glyphBytes : Nat := 5

/-- `MAX_ROM`, the longest ROM `load_rom` accepts (R8, R131). -/
def Config.maxRom : Nat := 3584

/-- `INSN_BYTES`, the width of every instruction (R8, R45). -/
def Config.insnBytes : Nat := 2

/-- The open parameter `SHIFT_SOURCE` (R9, R90, D11). It has no body: every claim holds for both values (log 3). -/
opaque Config.shiftSource : ShiftSource

/-- `draw_byte()` (R17, D25): the byte the environment gives to draw number `n`. It has no body, so nothing is known of
any draw (log 8). -/
opaque Config.drawByte : Nat → Byte

end Sys2Proof
end

