-- ==== Sys2Proof/Machine/State.lean ====
section
/-! DEFINITION. The state of the core (R18) as plain data, its faults and refusals, and the state after reset (R129). -/

namespace Sys2Proof.Machine

/-- Memory (R27): the bytes that differ from the reset contents, addresses rising (log 7). `Memory.wf` in Ops.lean says the
form. -/
abbrev Memory := List Host.Cell

/-- The framebuffer (R28): 32 rows of 64 pixels, row y first to last; bit x of row y is the pixel (x, y), whose index in the
spec is y·64 + x (log 18). -/
abbrev Framebuffer := Vector (BitVec 64) 32

/-- The fault kinds of R110. Each docstring says who raises it. All are safe: the spec itself makes the run end there. -/
inductive FaultKind where
  /-- Code 1: step, on a fetched word that matches no instruction (R62). Info: the word. -/
  | decodeError
  /-- Code 2: step, when `pc > 0xFFE` (R61). Info: `pc`. -/
  | fetchOutOfRange
  /-- Code 3: DRW, Fx33, Fx55, Fx65, when an address to access is above 0xFFF (R94, R107, R108, R109). Info: 0x1000. -/
  | memOutOfRange
  /-- Code 4: Fx1E, when `I + V[x] > 0xFFF` (R105). Info: the sum. -/
  | indexOutOfRange
  /-- Code 5: CALL, when `SP = 16` (R72). Info: 0. -/
  | stackOverflow
  /-- Code 6: RET, when `SP = 0` (R70). Info: 0. -/
  | stackUnderflow
  /-- Code 7: SKP and SKNP, when `V[x] > 0xF` (R98). Info: `V[x]`. -/
  | keyOutOfRange
  /-- Code 8: load_rom, on a ROM longer than 3584 bytes. It is reported to the caller and never recorded (R110, R113). -/
  | romTooLarge
deriving DecidableEq, Repr

/-- The code of a fault kind (R110, D7). -/
def FaultKind.code : FaultKind → Nat
  | .decodeError => 1
  | .fetchOutOfRange => 2
  | .memOutOfRange => 3
  | .indexOutOfRange => 4
  | .stackOverflow => 5
  | .stackUnderflow => 6
  | .keyOutOfRange => 7
  | .romTooLarge => 8

/-- The fault record (R30, R111): the kind, the address of the faulting instruction, and the kind's info, an exact natural
number (R11, log 11). -/
structure FaultRecord where
  kind : FaultKind
  pc : Word
  info : Nat
deriving DecidableEq, Repr

/-- The state tuple of R18. -/
structure State where
  /-- `V[0..15]` (R20). `V[15]` is VF. -/
  v : Vector Byte 16
  /-- The index register `I` (R21). -/
  i : Word
  /-- The program counter (R19). -/
  pc : Word
  /-- `stack[0..15]`, return addresses (R22). -/
  stack : Vector Word 16
  /-- `SP`, the entries in use, 0..16 (R23). -/
  sp : Fin 17
  /-- The delay timer `DT` (R24). -/
  dt : Byte
  /-- The sound timer `ST` (R24). -/
  st : Byte
  /-- `mem[0..4095]` (R27). -/
  mem : Memory
  /-- `fb[0..2047]` (R28). -/
  fb : Framebuffer
  /-- The redraw flag (R25). -/
  redraw : Bool
  /-- `keys[0..15]`, true means down (R29). -/
  keys : Vector Bool 16
  /-- The key-wait marker: the register that gets the next key (R26). -/
  wait : Option Reg
  /-- The fault record (R30). -/
  fault : Option FaultRecord
  /-- THE MODEL'S OWN field, not the spec's: how many RND bytes have been drawn. It names the next draw (R17, log 8). -/
  draws : Nat
deriving DecidableEq, Repr

/-- Why the machine stops. -/
inductive Fault where
  /-- Raised by step alone, in a state whose fault is already recorded: it "changes nothing and returns the recorded fault"
  (R59 case 1, R112). Safe: nothing follows a recorded fault (log 1). -/
  | recorded (r : FaultRecord)
deriving DecidableEq, Repr

/-- Why a command has no next state. -/
inductive Refusal where
  /-- Raised by an arm of `exec` for an instruction that has no meaning yet. Safe. No arm raises it now. -/
  | notModelled (mnemonic : String)
  /-- Raised by load_rom on a ROM of `len > 3584` bytes: "returns `ROM_TOO_LARGE` and changes nothing" (R113, R131).
  Safe: the spec's own refusal. -/
  | romTooLarge (len : Nat)
  /-- Raised by load_rom after another command: "outside the interface contract, and the model gives it no transition"
  (R132). Safe: the spec's own refusal (log 12). -/
  | loadRomOutOfContract
deriving DecidableEq, Repr

/-- What an instruction or a step answers. -/
abbrev Result := Host.Outcome State Fault Refusal

/-- The state right after reset (R129) under the default `ZERO_INIT = true`: `pc` at 0x200, the font in memory (nothing is
listed, since memory lists only what differs from the reset contents), and everything else 0 or none (log 5). -/
def State.reset : State where
  v := Vector.replicate 16 0
  i := 0
  pc := 0x200
  stack := Vector.replicate 16 0
  sp := 0
  dt := 0
  st := 0
  mem := []
  fb := Vector.replicate 32 0
  redraw := false
  keys := Vector.replicate 16 false
  wait := none
  fault := none
  draws := 0

end Sys2Proof.Machine
end

