-- ==== Sys2Proof/Machine/Ops.lean ====
section
/-! DEFINITION. The named operations over memory, registers, stack, framebuffer, keys and pc; fetching an instruction's
word; and entering a fault, the one exception this core has (R111). -/

namespace Sys2Proof.Machine

/-! ## Memory (R13, R31–R41) -/

/-- The parameter `FONT` at its default (R27, D29). UNVERIFIED: the spec supplies these bytes and marks them as from general
knowledge (G4, log 4); `State.powerOn` takes any FONT. One line a glyph, top row first. -/
def defaultFont : List Byte :=
  [0xF0, 0x90, 0x90, 0x90, 0xF0] ++
  [0x20, 0x60, 0x20, 0x20, 0x70] ++
  [0xF0, 0x10, 0xF0, 0x80, 0xF0] ++
  [0xF0, 0x10, 0xF0, 0x10, 0xF0] ++
  [0x90, 0x90, 0xF0, 0x10, 0x10] ++
  [0xF0, 0x80, 0xF0, 0x10, 0xF0] ++
  [0xF0, 0x80, 0xF0, 0x90, 0xF0] ++
  [0xF0, 0x10, 0x20, 0x40, 0x40] ++
  [0xF0, 0x90, 0xF0, 0x90, 0xF0] ++
  [0xF0, 0x90, 0xF0, 0x10, 0xF0] ++
  [0xF0, 0x90, 0xF0, 0x90, 0x90] ++
  [0xE0, 0x90, 0xE0, 0x90, 0xE0] ++
  [0xF0, 0x80, 0x80, 0x80, 0xF0] ++
  [0xE0, 0x90, 0x90, 0x90, 0xE0] ++
  [0xF0, 0x80, 0xF0, 0x80, 0xF0] ++
  [0xF0, 0x80, 0xF0, 0x80, 0x80]

/-- What an address that is not listed reads as: the reset contents of R32, the font at 0x000–0x04F and 0 elsewhere
(log 5, log 7). -/
def Memory.unlisted (a : Nat) : Byte := (defaultFont[a - Config.fontBase]?).getD 0

/-- `MemRead(a, 1)` (R13). The instructions call it for `a < 4096` only (R38, log 22). -/
def Memory.read : Memory → Nat → Byte
  | [], a => Memory.unlisted a
  | (b, w) :: m, a => if b = a then w else Memory.read m a

/-- Put a cell before the first cell of a higher address. -/
def Memory.insertCell (a : Nat) (v : Byte) : Memory → Memory
  | [] => [(a, v)]
  | (b, w) :: m => if a < b then (a, v) :: (b, w) :: m else (b, w) :: Memory.insertCell a v m

/-- `MemWrite(a, 1, v)` (R13): writing what an unlisted address reads as removes the entry, so the form stays canonical. -/
def Memory.write (m : Memory) (a : Nat) (v : Byte) : Memory :=
  let rest := m.filter fun c => !(c.1 == a)
  if v = Memory.unlisted a then rest else Memory.insertCell a v rest

/-- Several 1-byte writes at rising addresses (R13, R37). -/
def Memory.writeBytes (m : Memory) (a : Nat) : List Byte → Memory
  | [] => m
  | b :: bs => Memory.writeBytes (m.write a b) (a + 1) bs

/-- `n` 1-byte reads at rising addresses (R13, R37). -/
def Memory.readBytes (m : Memory) (a n : Nat) : List Byte := (List.range n).map fun k => m.read (a + k)

/-- The canonical form: addresses strictly rising and inside 0x000–0xFFF, and no cell equal to what its address would read
as unlisted. -/
abbrev Memory.wf (m : Memory) : Prop :=
  m.Pairwise (fun c d => c.1 < d.1) ∧ ∀ c ∈ m, c.1 < 4096 ∧ c.2 ≠ Memory.unlisted c.1

/-- The bound check of R38 for an access to `n` bytes from `base`: there is none, or the highest address is at most 0xFFF. -/
def accessFits (base n : Nat) : Bool := decide (n = 0 ∨ base + n - 1 ≤ 0xFFF)

/-! ## Registers (R12, R19–R21, R24–R26) -/

/-- VF, register 15 (R20). -/
def vf : Reg := 15

/-- `V[x]`. -/
def State.getV (s : State) (x : Reg) : Byte := s.v[x.toNat]'x.isLt

/-- `V[x] <- r`. No register is hardwired (R20). -/
def State.setV (s : State) (x : Reg) (r : Byte) : State := { s with v := s.v.set x.toNat r x.isLt }

/-- `I <- a`. -/
def State.setI (s : State) (a : Word) : State := { s with i := a }

/-- `pc <- target` (R15). -/
def State.setPc (s : State) (target : Word) : State := { s with pc := target }

/-- `advance(k)`: `pc <- pc + k` in 16 bits, exact for every `pc` that can be fetched from (R15, R19, log 17). -/
def State.advance (s : State) (k : Word) : State := s.setPc (s.pc + k)

/-- `DT <- v`. -/
def State.setDt (s : State) (v : Byte) : State := { s with dt := v }

/-- `ST <- v`. -/
def State.setSt (s : State) (v : Byte) : State := { s with st := v }

/-- `mem <- m`. -/
def State.setMem (s : State) (m : Memory) : State := { s with mem := m }

/-- `redraw <- b`. -/
def State.setRedraw (s : State) (b : Bool) : State := { s with redraw := b }

/-- `fb <- f`. -/
def State.setFb (s : State) (f : Framebuffer) : State := { s with fb := f }

/-- `wait <- w`. -/
def State.setWait (s : State) (w : Option Reg) : State := { s with wait := w }

/-- `keys[k]`. -/
def State.getKey (s : State) (k : Key) : Bool := s.keys[k.toNat]'k.isLt

/-- `keys[k] <- b`. -/
def State.setKey (s : State) (k : Key) (b : Bool) : State := { s with keys := s.keys.set k.toNat b k.isLt }

/-- `draw_byte()` (R17): the free byte of this draw, and the state in which the next draw is another one (log 8). -/
def State.drawByte (s : State) : Byte × State := (Config.drawByte s.draws, { s with draws := s.draws + 1 })

/-! ## The call stack (R22, R23) -/

/-- Push: write `stack[SP]`, then increment `SP`; none when all 16 entries are in use. -/
def State.push (s : State) (a : Word) : Option State :=
  if h : s.sp.val < 16 then
    some { s with stack := s.stack.set s.sp.val a h, sp := ⟨s.sp.val + 1, Nat.succ_lt_succ h⟩ }
  else none

/-- Pop: decrement `SP`, then read `stack[SP]`; none when no entry is in use. The entry keeps its value (R70). -/
def State.pop (s : State) : Option (Word × State) :=
  match s.sp with
  | ⟨0, _⟩ => none
  | ⟨k + 1, h⟩ => some (s.stack[k]'(Nat.lt_of_succ_lt_succ h), { s with sp := ⟨k, Nat.lt_of_succ_lt h⟩ })

/-! ## The framebuffer (R16, R28) -/

/-- `pix(x, y)`. Outside the 64×32 bitmap there is no pixel; the operation answers false there and no rule asks. -/
def Framebuffer.pix (fb : Framebuffer) (x y : Nat) : Bool := if h : y < 32 then (fb[y]'h).getLsbD x else false

/-- `fb[k]`, the pixel of index k = y·64 + x (R16, R28). -/
def Framebuffer.pixelAt (fb : Framebuffer) (k : Nat) : Bool := fb.pix (k % Config.fbW) (k / Config.fbW)

/-- `pix(x, y) <- pix(x, y) ^ 1`. -/
def Framebuffer.toggle (fb : Framebuffer) (x y : Nat) : Framebuffer :=
  if h : y < 32 then fb.set y (fb[y]'h ^^^ BitVec.twoPow 64 x) h else fb

/-- Every pixel 0. -/
def Framebuffer.blank : Framebuffer := Vector.replicate 32 0

/-! ## Faults (R14, R30, R111) -/

/-- `raise Fault(kind, info)`: the ONE fault entry. Nothing is written except `fault <- (kind, pc, info)`, and `pc`, the
address of the faulting instruction, is not advanced (R14, R111). There is no handler and no return (R112, R115). -/
def raise (kind : FaultKind) (info : Nat) (s : State) : Result := .next { s with fault := some ⟨kind, s.pc, info⟩ }

/-! ## Instruction fetch (R34, R61) -/

/-- The word at `pc`, high byte first (R34). -/
def State.fetchWord (s : State) : Word := wordOfBytes (s.mem.read s.pc.toNat) (s.mem.read (s.pc.toNat + 1))

/-- Fetch: nothing when the second byte would be outside memory (`pc > 0xFFE`), else the word; `pc` stays (R61). -/
def State.fetch (s : State) : Option Word := if s.pc.toNat > 0x0FFE then none else some s.fetchWord

/-- Place an instruction's two bytes where the next step fetches, and clear what would keep the next step from fetching: a
recorded fault, a key-wait, and a `pc` from which nothing can be fetched, which becomes 0x200 (log 15, log 16). -/
def State.placeNext (s : State) (bytes : List Byte) : State :=
  let pc := if s.pc.toNat > 0x0FFE then 0x200 else s.pc
  { s with pc := pc, wait := none, fault := none, mem := s.mem.writeBytes pc.toNat bytes }

end Sys2Proof.Machine
end

