-- ==== Sys2Proof/Machine/Operands.lean ====
section
/-! DEFINITION. The operand forms (R48) beyond a plain register or immediate, and the values instructions compute from
operands: exact naturals first, narrowed at the end (R11, R80). -/

namespace Sys2Proof.Machine

/-- `zext_16(nnn)` (R11, R48). -/
def addrOperand (nnn : Addr) : Word := nnn.setWidth 16

/-- The target of jump-with-offset: `zext_16(nnn) + V[0]`, at most 0x10FE, so exact in 16 bits (R74). -/
def offsetTarget (nnn : Addr) (s : State) : Word := BitVec.ofNat 16 (nnn.toNat + (s.getV 0).toNat)

/-- The shift source `s` of R90, for each value of SHIFT_SOURCE. -/
def shiftOperand (src : ShiftSource) (x y : Reg) (s : State) : Byte :=
  match src with
  | .vx => s.getV x
  | .vy => s.getV y

/-- The key named by a register's value; none above 0xF, where there is no key (R98). -/
def keyOperand (v : Byte) : Option Key := if v.toNat > 0xF then none else some (v.setWidth 4)

/-- `5 * (v & 0x0F)`, the address of a glyph (R106). -/
def glyphAddress (v : Byte) : Word := BitVec.ofNat 16 (Config.fontBase + Config.glyphBytes * (v &&& 0x0F).toNat)

/-- The hundreds, tens and ones digits (R107). -/
def bcdDigits (v : Byte) : List Byte :=
  [BitVec.ofNat 8 (v.toNat / 100), BitVec.ofNat 8 (v.toNat / 10 % 10), BitVec.ofNat 8 (v.toNat % 10)]

/-- `V[0]`, …, `V[x]` in order (R108). -/
def State.regsUpTo (s : State) (x : Reg) : List Byte := s.v.toList.take (x.toNat + 1)

/-- `for i in 0..x: V[i] <- MemRead(base + i, 1)` (R109). -/
def State.loadRegs (s : State) (x : Reg) (base : Nat) : State :=
  { s with v := s.v.mapIdx fun k old => if k ≤ x.toNat then s.mem.read (base + k) else old }

/-- `(a + b) mod 256` (R78, R87). -/
def sum8 (a b : Byte) : Byte := BitVec.ofNat 8 ((a.toNat + b.toNat) % 256)

/-- `(a + 256 - b) mod 256` (R88, R89). -/
def diff8 (a b : Byte) : Byte := BitVec.ofNat 8 ((a.toNat + 256 - b.toNat) % 256)

/-- `s >> 1`, a logical shift (R91). -/
def shr8 (a : Byte) : Byte := a >>> 1

/-- `(s * 2) mod 256` (R92). -/
def shl8 (a : Byte) : Byte := BitVec.ofNat 8 (a.toNat * 2 % 256)

end Sys2Proof.Machine
end

