-- ==== Sys2Proof/Machine/Flags.lean ====
section
/-! DEFINITION. The values written to VF (the table of R20), and the write order: destination first, flag last (C1). -/

namespace Sys2Proof.Machine

/-- A condition as a flag byte, 1 or 0. -/
def flagByte (b : Bool) : Byte := if b then 1 else 0

/-- The carry of an 8-bit add: 1 if `a + b > 255` (R87). -/
def carryFlag (a b : Byte) : Byte := flagByte (decide (a.toNat + b.toNat > 255))

/-- NOT borrow of `a - b`: 1 if `a ≥ b` (R88, R89). -/
def notBorrowFlag (a b : Byte) : Byte := flagByte (decide (a.toNat ≥ b.toNat))

/-- The bit a right shift moves out, `s & 1` (R91). -/
def shrFlag (a : Byte) : Byte := a &&& 1

/-- The bit a left shift moves out, `s >> 7` (R92). -/
def shlFlag (a : Byte) : Byte := a >>> 7

/-- `V[x] <- r; V[F] <- flag`: the flag is written last, so it stays when x = F (R20, C1). -/
def State.setVFlag (s : State) (x : Reg) (r flag : Byte) : State := (s.setV x r).setV vf flag

/-- The end of a skip instruction: `pc + 4` if its condition holds, else `pc + 2` (R64, R65). -/
def State.skipIf (s : State) (c : Bool) : State := s.advance (if c then 4 else 2)

end Sys2Proof.Machine
end

