-- ==== Sys2Proof/Machine/Address.lean ====
section
/-! DEFINITION. The address family: JP, CALL, LD I, JP V0 (42_address.md). -/

namespace Sys2Proof.Machine

/-- JP nnn (R71). -/
def execJp (nnn : Addr) (s : State) : Result := .next (s.setPc (addrOperand nnn))

/-- CALL nnn (R72): the pushed value is the address of this CALL. -/
def execCall (nnn : Addr) (s : State) : Result :=
  match s.push s.pc with
  | none => raise .stackOverflow 0 s
  | some t => .next (t.setPc (addrOperand nnn))

/-- LD I, nnn (R73). -/
def execLdI (nnn : Addr) (s : State) : Result := .next ((s.setI (addrOperand nnn)).advance 2)

/-- JP V0, nnn (R74). The offset register V0 is the spec's own (G3, log 9). -/
def execJpV0 (nnn : Addr) (s : State) : Result := .next (s.setPc (offsetTarget nnn s))

end Sys2Proof.Machine
end

