-- ==== Sys2Proof/Machine/Draw.lean ====
section
/-! DEFINITION. Draw-sprite and its rasterizer (45_draw.md). -/

namespace Sys2Proof.Machine

/-- What the loop of R93 carries: the framebuffer and `hit`. -/
structure Canvas where
  fb : Framebuffer
  hit : Bool
deriving DecidableEq, Repr

/-- One source bit (R95, R96): a 1-bit inside the screen sets `hit` if its pixel is set, and toggles the pixel; a 0-bit or a
clipped bit does nothing. The sums are exact. -/
def drawBit (cx cy : Nat) (byte : Byte) (row col : Nat) (c : Canvas) : Canvas :=
  if byte.getLsbD (7 - col) = true ∧ cx + col < Config.fbW ∧ cy + row < Config.fbH then
    { fb := c.fb.toggle (cx + col) (cy + row), hit := c.hit || c.fb.pix (cx + col) (cy + row) }
  else c

/-- One sprite byte, columns 0 to 7 (R95). -/
def drawRow (cx cy : Nat) (byte : Byte) (row : Nat) (c : Canvas) : Canvas :=
  (List.range 8).foldl (fun c col => drawBit cx cy byte row col c) c

/-- The sprite bytes from row `row` on, top first (R94, R95). -/
def drawRows (cx cy : Nat) : Nat → List Byte → Canvas → Canvas
  | _, [], c => c
  | row, byte :: rest, c => drawRows cx cy (row + 1) rest (drawRow cx cy byte row c)

/-- The canvas after drawing the sprite at `I` of `n` rows at (`V[x]`, `V[y]`), starting with `hit = 0` (R93). -/
def State.drawSprite (s : State) (x y : Reg) (n : Nibble) : Canvas :=
  drawRows (s.getV x).toNat (s.getV y).toNat 0 (s.mem.readBytes s.i.toNat n.toNat) { fb := s.fb, hit := false }

/-- DRW Vx, Vy, n (R93): the whole sprite is checked first (R94); VF is written after every pixel (R96); redraw is always set
(R97). -/
def execDrw (x y : Reg) (n : Nibble) (s : State) : Result :=
  if accessFits s.i.toNat n.toNat then
    .next ((((s.setFb (s.drawSprite x y n).fb).setV vf (flagByte (s.drawSprite x y n).hit)).setRedraw true).advance 2)
  else raise .memOutOfRange 0x1000 s

end Sys2Proof.Machine
end

