-- ==== Sys2Proof/Machine/FFamily.lean ====
section
/-! DEFINITION. The F family: timers, key wait, index register, memory transfers (47_f_family.md). -/

namespace Sys2Proof.Machine

/-- LD Vx, DT (R101). -/
def execLdVxDt (x : Reg) (s : State) : Result := .next ((s.setV x s.dt).advance 2)

/-- LD Vx, K (R104): the wait is recorded and `pc` already advanced; `key_down` writes `V[x]` later. -/
def execLdVxK (x : Reg) (s : State) : Result := .next ((s.setWait (some x)).advance 2)

/-- LD DT, Vx (R102). -/
def execLdDtVx (x : Reg) (s : State) : Result := .next ((s.setDt (s.getV x)).advance 2)

/-- LD ST, Vx (R103). -/
def execLdStVx (x : Reg) (s : State) : Result := .next ((s.setSt (s.getV x)).advance 2)

/-- ADD I, Vx (R105): a sum past 0xFFF faults rather than wraps; no flag (D13). -/
def execAddIVx (x : Reg) (s : State) : Result :=
  let t := s.i.toNat + (s.getV x).toNat
  if t > 0x0FFF then raise .indexOutOfRange t s else .next ((s.setI (BitVec.ofNat 16 t)).advance 2)

/-- LD F, Vx (R106). -/
def execLdFVx (x : Reg) (s : State) : Result := .next ((s.setI (glyphAddress (s.getV x))).advance 2)

/-- LD B, Vx (R107). -/
def execLdBVx (x : Reg) (s : State) : Result :=
  if accessFits s.i.toNat 3 then
    .next ((s.setMem (s.mem.writeBytes s.i.toNat (bcdDigits (s.getV x)))).advance 2)
  else raise .memOutOfRange 0x1000 s

/-- LD [I], Vx (R108): I is not changed. -/
def execLdMemVx (x : Reg) (s : State) : Result :=
  if accessFits s.i.toNat (x.toNat + 1) then
    .next ((s.setMem (s.mem.writeBytes s.i.toNat (s.regsUpTo x))).advance 2)
  else raise .memOutOfRange 0x1000 s

/-- LD Vx, [I] (R109): I is not changed. -/
def execLdVxMem (x : Reg) (s : State) : Result :=
  if accessFits s.i.toNat (x.toNat + 1) then .next ((s.loadRegs x s.i.toNat).advance 2)
  else raise .memOutOfRange 0x1000 s

end Sys2Proof.Machine
end

