-- ==== Sys2Proof/Machine/Fixed.lean ====
section
/-! DEFINITION. The fixed family: NOP, CLS, RET (41_fixed.md). -/

namespace Sys2Proof.Machine

/-- NOP (R68). -/
def execNop (s : State) : Result := .next (s.advance 2)

/-- CLS (R69). -/
def execCls (s : State) : Result := .next (((s.setFb Framebuffer.blank).setRedraw true).advance 2)

/-- RET (R70): the popped entry is the address of the CALL, so control resumes two bytes past it. -/
def execRet (s : State) : Result :=
  match s.pop with
  | none => raise .stackUnderflow 0 s
  | some (a, t) => .next (t.setPc (a + 2))

end Sys2Proof.Machine
end

