-- ==== Sys2Proof/Machine/KeyTest.lean ====
section
/-! DEFINITION. The key-test family: SKP, SKNP (46_key_tests.md). -/

namespace Sys2Proof.Machine

/-- SKP Vx (R98, R99). -/
def execSkp (x : Reg) (s : State) : Result :=
  match keyOperand (s.getV x) with
  | none => raise .keyOutOfRange (s.getV x).toNat s
  | some k => .next (s.skipIf (s.getKey k))

/-- SKNP Vx (R98, R100). -/
def execSknp (x : Reg) (s : State) : Result :=
  match keyOperand (s.getV x) with
  | none => raise .keyOutOfRange (s.getV x).toNat s
  | some k => .next (s.skipIf (!s.getKey k))

end Sys2Proof.Machine
end

