-- ==== Sys2Proof/Machine/RegisterImmediate.lean ====
section
/-! DEFINITION. The register + immediate family (43_register_immediate.md). -/

namespace Sys2Proof.Machine

/-- SE Vx, kk (R75). -/
def execSeImm (x : Reg) (kk : Byte) (s : State) : Result := .next (s.skipIf (s.getV x == kk))

/-- SNE Vx, kk (R76). -/
def execSneImm (x : Reg) (kk : Byte) (s : State) : Result := .next (s.skipIf (s.getV x != kk))

/-- LD Vx, kk (R77). -/
def execLdImm (x : Reg) (kk : Byte) (s : State) : Result := .next ((s.setV x kk).advance 2)

/-- ADD Vx, kk (R78): wraps modulo 256 and writes no flag. -/
def execAddImm (x : Reg) (kk : Byte) (s : State) : Result := .next ((s.setV x (sum8 (s.getV x) kk)).advance 2)

/-- RND Vx, kk (R79): the drawn byte is a free value (log 8). -/
def execRnd (x : Reg) (kk : Byte) (s : State) : Result := .next ((s.drawByte.2.setV x (s.drawByte.1 &&& kk)).advance 2)

end Sys2Proof.Machine
end

