-- ==== Sys2Proof/Machine/RegisterPair.lean ====
section
/-! DEFINITION. The register-pair family (44_register_pair.md): operands are read first, the destination is written next,
the flag last. -/

namespace Sys2Proof.Machine

/-- SE Vx, Vy (R81). -/
def execSeReg (x y : Reg) (s : State) : Result := .next (s.skipIf (s.getV x == s.getV y))

/-- SNE Vx, Vy (R82). -/
def execSneReg (x y : Reg) (s : State) : Result := .next (s.skipIf (s.getV x != s.getV y))

/-- LD Vx, Vy (R83). -/
def execLdReg (x y : Reg) (s : State) : Result := .next ((s.setV x (s.getV y)).advance 2)

/-- OR Vx, Vy (R84): no flag (D12). -/
def execOr (x y : Reg) (s : State) : Result := .next ((s.setV x (s.getV x ||| s.getV y)).advance 2)

/-- AND Vx, Vy (R85): no flag (D12). -/
def execAnd (x y : Reg) (s : State) : Result := .next ((s.setV x (s.getV x &&& s.getV y)).advance 2)

/-- XOR Vx, Vy (R86): no flag (D12). -/
def execXor (x y : Reg) (s : State) : Result := .next ((s.setV x (s.getV x ^^^ s.getV y)).advance 2)

/-- ADD Vx, Vy (R87). -/
def execAddReg (x y : Reg) (s : State) : Result :=
  .next ((s.setVFlag x (sum8 (s.getV x) (s.getV y)) (carryFlag (s.getV x) (s.getV y))).advance 2)

/-- SUB Vx, Vy (R88): Vx − Vy. -/
def execSub (x y : Reg) (s : State) : Result :=
  .next ((s.setVFlag x (diff8 (s.getV x) (s.getV y)) (notBorrowFlag (s.getV x) (s.getV y))).advance 2)

/-- SUBN Vx, Vy (R89): Vy − Vx. -/
def execSubn (x y : Reg) (s : State) : Result :=
  .next ((s.setVFlag x (diff8 (s.getV y) (s.getV x)) (notBorrowFlag (s.getV y) (s.getV x))).advance 2)

/-- SHR under a given SHIFT_SOURCE (R90, R91). -/
def shrFrom (src : ShiftSource) (x y : Reg) (s : State) : Result :=
  .next ((s.setVFlag x (shr8 (shiftOperand src x y s)) (shrFlag (shiftOperand src x y s))).advance 2)

/-- SHR Vx, Vy (R91) under the core's SHIFT_SOURCE (log 3). -/
def execShr (x y : Reg) (s : State) : Result := shrFrom Config.shiftSource x y s

/-- SHL under a given SHIFT_SOURCE (R90, R92). -/
def shlFrom (src : ShiftSource) (x y : Reg) (s : State) : Result :=
  .next ((s.setVFlag x (shl8 (shiftOperand src x y s)) (shlFlag (shiftOperand src x y s))).advance 2)

/-- SHL Vx, Vy (R92) under the core's SHIFT_SOURCE (log 3). -/
def execShl (x y : Reg) (s : State) : Result := shlFrom Config.shiftSource x y s

end Sys2Proof.Machine
end

