-- ==== Sys2Proof/Machine/Cycle.lean ====
section
/-! DEFINITION. The fetch-decode-execute cycle (R61–R63) and the gates before it (R59, R60), in the order of R67. -/

namespace Sys2Proof.Machine

/-- Fetch, decode, execute: the first check that fails decides the fault (R61, R62, R63, R67 steps 3 to 5). -/
def fetchDecodeExecute (s : State) : Result :=
  match s.fetch with
  | none => raise .fetchOutOfRange s.pc.toNat s
  | some w =>
    match decode w with
    | .error _ => raise .decodeError w.toNat s
    | .ok i => exec i s

/-- The step command (R59): a recorded fault is returned and nothing changes; a key-wait makes it a no-op that succeeds
(R60); else one cycle. -/
def stepCommand (s : State) : Result :=
  match s.fault with
  | some r => .fault (.recorded r)
  | none =>
    match s.wait with
    | some _ => .next s
    | none => fetchDecodeExecute s

end Sys2Proof.Machine
end

