-- ==== Sys2Proof/Machine/Step.lean ====
section
/-! DEFINITION. One step of the core, and the host's placing of an instruction where the next step fetches. -/

namespace Sys2Proof.Machine

/-- The step command `step()` of R59. -/
def step (s : State) : Host.Outcome State Fault Refusal := stepCommand s

/-- The state with the instruction of a table word stored where `step` fetches next (log 15, log 16). -/
def State.withFetchWord (s : State) (nbits w : Nat) : State := s.placeNext (tableBytes nbits w)

end Sys2Proof.Machine
end

