-- ==== Sys2Proof/Machine/Commands.lean ====
section
/-! DEFINITION. The host interface (R125): the commands beside step, what the host reads, power-on under any FONT and without ZERO_INIT, and a
session that keeps the contract of load_rom (R132). -/

namespace Sys2Proof.Machine

/-! ## Commands over the core's state. After a fault each changes nothing (R112). -/

/-- A timer counted down once, never below 0 (R117). -/
def decrement (t : Byte) : Byte := if t.toNat > 0 then t - 1 else t

/-- `tick_timers()` (R117). A key-wait does not gate it. -/
def tickTimers (s : State) : State :=
  if s.fault.isSome then s else (s.setDt (decrement s.dt)).setSt (decrement s.st)

/-- `key_down(k)` (R119): the key is down; a pending wait gets the key code and ends, even if the key was already down. -/
def keyDown (k : Key) (s : State) : State :=
  if s.fault.isSome then s
  else
    match s.wait with
    | none => s.setKey k true
    | some r => ((s.setKey k true).setV r (k.setWidth 8)).setWait none

/-- `key_up(k)` (R120): it never ends a wait. -/
def keyUp (k : Key) (s : State) : State := if s.fault.isSome then s else s.setKey k false

/-- `clear_redraw()` (R123). -/
def clearRedraw (s : State) : State := if s.fault.isSome then s else s.setRedraw false

/-- `load_rom(bytes)` (R131): refused as ROM_TOO_LARGE above 3584 bytes, else the bytes are copied verbatim to 0x200.. and
nothing else changes. -/
def loadRom (bytes : List Byte) (s : State) : Result :=
  if s.fault.isSome then .next s
  else if bytes.length > Config.maxRom then .refused (.romTooLarge bytes.length)
  else .next (s.setMem (s.mem.writeBytes Config.programStart bytes))

/-! ## What the host reads, changing nothing (R122, R124) -/

/-- The framebuffer cell of index k = y·64 + x (R122). -/
def State.readPixel (s : State) (k : Nat) : Bool := s.fb.pixelAt k

/-- "nonzero ⇒ host should be emitting tone" (R124). -/
def State.toneOn (s : State) : Bool := s.st != 0

/-- What `step()` returns to the host with the state it leaves: none is ok, else the fault (R59, R111, R112, log 1). -/
def stepReply (s : State) : State × Option FaultRecord :=
  match step s with
  | .next t => (t, t.fault)
  | .fault (.recorded r) => (s, some r)
  | .refused _ => (s, none)

/-! ## Power-on (R129) -/

/-- What a power-on takes: the parameter FONT (R9, R27), and the free draws of `ZERO_INIT = false` (R129). `ram` gives the
bytes from 0x050 on, and bytes it does not reach are 0; the draw of I ranges over what I can hold (R21, log 6). -/
structure PowerOn where
  font : Vector Byte 80
  v : Vector Byte 16
  i : Addr
  stack : Vector Word 16
  dt : Byte
  st : Byte
  fb : Framebuffer
  redraw : Bool
  ram : List Byte
deriving DecidableEq, Repr

/-- The state right after reset under a given FONT and given draws (R129): `pc`, `SP`, `wait`, `fault` and the keys as in
`State.reset`, the font at 0x000, and everything else drawn. -/
def State.powerOn (d : PowerOn) : State :=
  { State.reset with
    v := d.v, i := d.i.setWidth 16, stack := d.stack, dt := d.dt, st := d.st, fb := d.fb, redraw := d.redraw,
    mem := Memory.writeBytes (Memory.writeBytes [] Config.fontBase d.font.toList) 0x050 (d.ram.take 4016) }

/-- `ZERO_INIT = true` with the default FONT: every draw is 0 (R129). -/
def PowerOn.zero : PowerOn where
  font := Vector.ofFn fun k => (defaultFont[k.val]?).getD 0
  v := Vector.replicate 16 0
  i := 0
  stack := Vector.replicate 16 0
  dt := 0
  st := 0
  fb := Framebuffer.blank
  redraw := false
  ram := []

/-! ## A session: the core and its host's place in the contract -/

/-- The host commands (R7, R125). -/
inductive Command where
  | loadRom (bytes : List Byte)
  | step
  | tickTimers
  | keyDown (k : Key)
  | keyUp (k : Key)
  | clearRedraw
deriving DecidableEq, Repr

/-- The core, and whether `load_rom` may still be called: it is fresh from reset, with no command before it that counts
(R132, log 12). -/
structure Session where
  core : State
  fresh : Bool
deriving DecidableEq, Repr

/-- A session at reset. -/
def Session.reset : Session := { core := State.reset, fresh := true }

/-- The rest of a session after a command that counts. -/
def Session.continueWith : Result → Host.Outcome Session Fault Refusal
  | .next t => .next { core := t, fresh := false }
  | .fault r => .fault r
  | .refused r => .refused r

/-- One command (R125). A `load_rom` after another command has no transition (R132), but after a fault it changes nothing,
like every command (R112, log 14). -/
def Session.perform (c : Command) (p : Session) : Host.Outcome Session Fault Refusal :=
  match c with
  | .loadRom bytes =>
    if p.fresh || p.core.fault.isSome then Session.continueWith (loadRom bytes p.core)
    else .refused .loadRomOutOfContract
  | .step => Session.continueWith (step p.core)
  | .tickTimers => .next { core := tickTimers p.core, fresh := false }
  | .keyDown k => .next { core := keyDown k p.core, fresh := false }
  | .keyUp k => .next { core := keyUp k p.core, fresh := false }
  | .clearRedraw => .next { core := clearRedraw p.core, fresh := false }

/-- The session after a command, whatever it answered: a fault or a refusal changes nothing (R112, R113, R132). -/
def Session.after (c : Command) (p : Session) : Session :=
  match p.perform c with
  | .next q => q
  | .fault _ => p
  | .refused _ => p

/-- The session after a list of commands, first to last. -/
def Session.run : List Command → Session → Session
  | [], p => p
  | c :: cs, p => Session.run cs (Session.after c p)

end Sys2Proof.Machine
end

