-- ==== Sys2Proof/Safety.lean ====
section
/-! DEFINITION. The terms claims use: the invariant of the reachable states, what each instruction may write, and what counts
as a safe run. -/

namespace Sys2Proof.Machine

/-- What holds of the core in every state a run reaches. -/
structure Inv (s : State) : Prop where
  /-- Memory keeps its canonical form. -/
  memory : s.mem.wf
  /-- `I ≤ 0x0FFF` (R21, C2). -/
  index : s.i.toNat ≤ 0x0FFF
  /-- No program can bring `pc` above 0x10FE (R19). -/
  pc : s.pc.toNat ≤ 0x10FE
  /-- An entry in use is the address of a CALL, at most 0x0FFE (R22). -/
  stack : ∀ j : Fin 16, j.val < s.sp.val → s.stack[j.val].toNat ≤ 0x0FFE
  /-- A recorded fault names the `pc` the core stays at (R111), is not ROM_TOO_LARGE (R110), and is never recorded during a
  key-wait (R60). -/
  fault : ∀ r, s.fault = some r → r.pc = s.pc ∧ r.kind ≠ .romTooLarge ∧ s.wait = none

/-- The registers an instruction may write: its destination, and VF for the flag writers (the table of R20). -/
def destinations : Instr → List Reg
  | .ldImm x _ | .addImm x _ | .rnd x _ | .ldReg x _ | .or x _ | .and x _ | .xor x _ | .ldVxDt x => [x]
  | .addReg x _ | .sub x _ | .shr x _ | .subn x _ | .shl x _ => [x, vf]
  | .drw _ _ _ => [vf]
  | .ldVxMem x => (List.range (x.toNat + 1)).map (BitVec.ofNat 4)
  | .nop | .cls | .ret | .jp _ | .call _ | .ldI _ | .jpV0 _ | .seImm _ _ | .sneImm _ _ | .seReg _ _ | .sneReg _ _
  | .skp _ | .sknp _ | .ldVxK _ | .ldDtVx _ | .ldStVx _ | .addIVx _ | .ldFVx _ | .ldBVx _ | .ldMemVx _ => []

/-- How many bytes an instruction stores, from address I on (the writes column of R37). -/
def storeCount : Instr → Nat
  | .ldBVx _ => 3
  | .ldMemVx x => x.toNat + 1
  | .nop | .cls | .ret | .jp _ | .call _ | .ldI _ | .jpV0 _ | .seImm _ _ | .sneImm _ _ | .ldImm _ _ | .addImm _ _
  | .rnd _ _ | .seReg _ _ | .sneReg _ _ | .ldReg _ _ | .or _ _ | .and _ _ | .xor _ _ | .addReg _ _ | .sub _ _
  | .shr _ _ | .subn _ _ | .shl _ _ | .drw _ _ _ | .skp _ | .sknp _ | .ldVxDt _ | .ldVxK _ | .ldDtVx _ | .ldStVx _
  | .addIVx _ | .ldFVx _ | .ldVxMem _ => 0

/-- Does the sprite of `n` bytes at `base`, drawn at (cx, cy), have a 1-bit on the pixel (px, py)? (R95: bit 7 is column 0.) -/
def spriteCovers (m : Memory) (base n cx cy px py : Nat) : Bool :=
  decide (cx ≤ px ∧ px < cx + 8 ∧ cy ≤ py ∧ py < cy + n) && (m.read (base + (py - cy))).getLsbD (7 - (px - cx))

/-- `t` is `s` with `V[r]` holding `f r` for every register `r` and `pc` holding `target`; everything else is as in `s`. -/
def RegistersBecome (s t : State) (f : Reg → Byte) (target : Word) : Prop :=
  (∀ r, t.getV r = f r) ∧ t = { s with v := t.v, pc := target }

/-- A fetch from memory `m` reads the bytes that `f` gives: whatever else the state holds, the word at a `pc` that can be
fetched from is made of `f pc` and `f (pc + 1)`, high byte first. -/
def FetchSees (m : Memory) (f : Nat → Byte) : Prop :=
  ∀ u : State, u.mem = m → u.pc.toNat ≤ 0x0FFE →
    u.fetch = some (wordOfBytes (f u.pc.toNat) (f (u.pc.toNat + 1)))

/-- A safe run: a list of host commands from reset after which no fault is recorded (R134: "A run that records a fault has
failed"). -/
def SafeRun (cs : List Command) : Prop := (Session.run cs Session.reset).core.fault = none

end Sys2Proof.Machine
end

