-- ==== Sys2Proof/Certificates/Slice0/Obligations.lean ====
section
/-! DEFINITION. The statements for the provers. Each docstring names the rule of spec/ it formalises. -/

open Sys2Proof Sys2Proof.Machine

/-! ## Encoding -/

/-- One word of every family, written out in 95_test_vectors.md, decodes as that file says. -/
def Obligations.SpecWordsDecode : Prop :=
  decode 0x00E0 = .ok .cls ∧ decode 0xA123 = .ok (.ldI 0x123) ∧ decode 0x7220 = .ok (.addImm 2 0x20) ∧
  decode 0x8124 = .ok (.addReg 1 2) ∧ decode 0x812E = .ok (.shl 1 2) ∧ decode 0xD120 = .ok (.drw 1 2 0) ∧
  decode 0xE1A1 = .ok (.sknp 1) ∧ decode 0xF265 = .ok (.ldVxMem 2) ∧
  decode 0x5121 = .error (.unknownOpcode 0x5121) ∧ decode 0x8128 = .error (.unknownOpcode 0x8128)

/-- DECODE AND ENCODE AGREE for every instruction and every operand (R46–R48, R51), as words and as the two bytes memory
holds, high byte first (R34), whatever follows them. -/
def Obligations.DecodeOfEncode : Prop :=
  ∀ (i : Instr) (rest : List Byte),
    decode (encode i) = .ok i ∧ decodeBytes (encodeBytes i ++ rest) = .ok (i, rest)

/-- An instruction has exactly one word: a word that decodes to it is its encoding (R49–R51). -/
def Obligations.EncodeOfDecode : Prop :=
  ∀ (w : Word) (i : Instr), decode w = .ok i → encode i = w

/-- R51: there are exactly 35 rows, and a word is a row's instruction when `w & mask = match`: what decodes matches its row,
and what matches a row decodes to an instruction of that row. -/
def Obligations.DecodeFollowsOpcodeMap : Prop :=
  opcodeRows.length = 35 ∧
  (∀ (w : Word) (i : Instr), decode w = .ok i → i.row ∈ opcodeRows ∧ w &&& i.row.mask = i.row.pattern) ∧
  ∀ r ∈ opcodeRows, ∀ w : Word, w &&& r.mask = r.pattern → ∃ i, decode w = .ok i ∧ i.row = r

/-- R53: the words that do not decode are exactly the six illegal groups, and the error names the word. -/
def Obligations.IllegalWordsAreTheSixGroups : Prop :=
  ∀ w : Word,
    ((∃ i, decode w = .ok i) ↔ legalWord w = true) ∧
    (decode w = .error (.unknownOpcode w) ↔ legalWord w = false)

/-- R54, R55, R56: in group 0 only 0x0000, 0x00E0 and 0x00EE decode; in groups 5 and 9 only a low nibble of 0; in group F
only the nine listed suffixes. -/
def Obligations.StrictGroups : Prop :=
  (∀ nnn : Addr, decode (wordNnn 0x0 nnn) =
    if nnn = 0x000 then .ok .nop else if nnn = 0x0E0 then .ok .cls else if nnn = 0x0EE then .ok .ret
    else .error (.unknownOpcode (wordNnn 0x0 nnn))) ∧
  (∀ (x y : Reg) (n : Nibble), decode (wordXyn 0x5 x y n) =
    if n = 0 then .ok (.seReg x y) else .error (.unknownOpcode (wordXyn 0x5 x y n))) ∧
  (∀ (x y : Reg) (n : Nibble), decode (wordXyn 0x9 x y n) =
    if n = 0 then .ok (.sneReg x y) else .error (.unknownOpcode (wordXyn 0x9 x y n))) ∧
  ∀ (x : Reg) (kk : Byte),
    if kk ∈ ([0x07, 0x0A, 0x15, 0x18, 0x1E, 0x29, 0x33, 0x55, 0x65] : List Byte) then
      ∃ i, decode (wordXkk 0xF x kk) = .ok i
    else decode (wordXkk 0xF x kk) = .error (.unknownOpcode (wordXkk 0xF x kk))

/-! ## The step cycle -/

/-- A STEP RUNS THE DECODED INSTRUCTION (R59, R61, R63): with no fault recorded, no key-wait, and the bytes at `pc` and
`pc + 1`, high byte first, decoding to `i`, the step is `exec i`. Nothing is added around it. -/
def Obligations.StepRunsDecodedInstruction : Prop :=
  ∀ (s : State) (i : Instr), s.fault = none → s.wait = none → s.pc.toNat ≤ 0x0FFE →
    decode (s.mem.read s.pc.toNat ++ s.mem.read (s.pc.toNat + 1)) = .ok i → step s = exec i s

/-- R59 case 1: with a fault recorded, step changes nothing and returns the record; the outcome `fault` is how the model
returns it (log 1). -/
def Obligations.StepOnRecordedFault : Prop :=
  ∀ (s : State) (r : FaultRecord), s.fault = some r →
    step s = .fault (.recorded r) ∧ stepReply s = (s, some r)

/-- R60: during a key-wait step changes nothing and succeeds, whatever `pc` is, and no command but key_down ends the wait. -/
def Obligations.StepDuringKeyWait : Prop :=
  (∀ (s : State) (r : Reg), s.fault = none → s.wait = some r → step s = .next s ∧ stepReply s = (s, none)) ∧
  ∀ (p : Session) (r : Reg) (c : Command), p.core.fault = none → p.core.wait = some r → (∀ k, c ≠ .keyDown k) →
    (Session.after c p).core.wait = some r

/-- R61: with `pc > 0xFFE` the step raises FETCH_OUT_OF_RANGE with info `pc`; otherwise the fetched word is
`mem[pc] * 256 + mem[pc + 1]`. -/
def Obligations.FetchChecksItsBound : Prop :=
  (∀ s : State, s.fault = none → s.wait = none → s.pc.toNat > 0x0FFE →
    step s = .next { s with fault := some ⟨.fetchOutOfRange, s.pc, s.pc.toNat⟩ }) ∧
  ∀ s : State, s.pc.toNat ≤ 0x0FFE →
    ∃ w, s.fetch = some w ∧ w.toNat = (s.mem.read s.pc.toNat).toNat * 256 + (s.mem.read (s.pc.toNat + 1)).toNat

/-- R62: a fetched word that does not decode raises DECODE_ERROR with the word as info, and nothing is executed. -/
def Obligations.UndecodableWordFaults : Prop :=
  ∀ (s : State) (w : Word) (e : DecodeError), s.fault = none → s.wait = none → s.fetch = some w →
    decode w = .error e → step s = .next { s with fault := some ⟨.decodeError, s.pc, w.toNat⟩ }

/-- R134: a step always executes, waits or reports a fault: it answers a next state, or the fault recorded before it, and
never refuses. -/
def Obligations.StepAlwaysAnswers : Prop :=
  ∀ s : State, (s.fault = none ∧ ∃ t, step s = .next t) ∨ ∃ r, s.fault = some r ∧ step s = .fault (.recorded r)

/-- R111: a step fault is precise: the step that records a fault writes nothing else, records the `pc` it stays at, and
returns the fault. -/
def Obligations.FaultingStepIsPrecise : Prop :=
  ∀ (s t : State) (r : FaultRecord), s.fault = none → step s = .next t → t.fault = some r →
    t = { s with fault := some r } ∧ r.pc = s.pc ∧ stepReply s = (t, some r)

/-- R110: the codes, ROM_TOO_LARGE as an answer of load_rom only, and for every fault a step records, its cause and its
info. -/
def Obligations.FaultKindsHaveTheirCauses : Prop :=
  ([.decodeError, .fetchOutOfRange, .memOutOfRange, .indexOutOfRange, .stackOverflow, .stackUnderflow, .keyOutOfRange,
    .romTooLarge] : List FaultKind).map FaultKind.code = [1, 2, 3, 4, 5, 6, 7, 8] ∧
  (∀ (s : State) (bytes : List Byte), s.fault = none → bytes.length > 3584 →
    loadRom bytes s = .refused (.romTooLarge bytes.length)) ∧
  ∀ (s t : State) (r : FaultRecord), s.fault = none → step s = .next t → t.fault = some r →
    match r.kind with
    | .decodeError =>
      s.pc.toNat ≤ 0x0FFE ∧ (∀ i, decode s.fetchWord ≠ .ok i) ∧ r.info = s.fetchWord.toNat
    | .fetchOutOfRange => s.pc.toNat > 0x0FFE ∧ r.info = s.pc.toNat
    | .memOutOfRange =>
      r.info = 0x1000 ∧
      ((∃ x y n, decode s.fetchWord = .ok (.drw x y n) ∧ n.toNat > 0 ∧ s.i.toNat + n.toNat - 1 > 0x0FFF) ∨
       (∃ x, decode s.fetchWord = .ok (.ldBVx x) ∧ s.i.toNat + 2 > 0x0FFF) ∨
       (∃ x, decode s.fetchWord = .ok (.ldMemVx x) ∧ s.i.toNat + x.toNat > 0x0FFF) ∨
       (∃ x, decode s.fetchWord = .ok (.ldVxMem x) ∧ s.i.toNat + x.toNat > 0x0FFF))
    | .indexOutOfRange =>
      ∃ x, decode s.fetchWord = .ok (.addIVx x) ∧ s.i.toNat + (s.getV x).toNat > 0x0FFF ∧
        r.info = s.i.toNat + (s.getV x).toNat
    | .stackOverflow => ∃ nnn, decode s.fetchWord = .ok (.call nnn) ∧ s.sp.val = 16 ∧ r.info = 0
    | .stackUnderflow => decode s.fetchWord = .ok .ret ∧ s.sp.val = 0 ∧ r.info = 0
    | .keyOutOfRange =>
      ∃ x, (decode s.fetchWord = .ok (.skp x) ∨ decode s.fetchWord = .ok (.sknp x)) ∧ (s.getV x).toNat > 0xF ∧
        r.info = (s.getV x).toNat
    | .romTooLarge => False

/-- R64: how every instruction moves `pc`, in exact natural numbers (R66): by 2; by 4 where a skip's condition holds; to the
address a jump, call, return or jump-with-offset computes; and not at all where it faults. The invariant (I2) and the fetch
bound rule out the states in which a 16-bit sum would wrap (log 17). -/
def Obligations.PcMovesByPolicy : Prop :=
  ∀ (i : Instr) (s t : State), Inv s → s.pc.toNat ≤ 0x0FFE → s.fault = none → exec i s = .next t →
    if t.fault = none then
      t.pc.toNat =
        match i with
        | .seImm x kk => if s.getV x = kk then s.pc.toNat + 4 else s.pc.toNat + 2
        | .sneImm x kk => if s.getV x ≠ kk then s.pc.toNat + 4 else s.pc.toNat + 2
        | .seReg x y => if s.getV x = s.getV y then s.pc.toNat + 4 else s.pc.toNat + 2
        | .sneReg x y => if s.getV x ≠ s.getV y then s.pc.toNat + 4 else s.pc.toNat + 2
        | .skp x => if s.getKey ((s.getV x).setWidth 4) = true then s.pc.toNat + 4 else s.pc.toNat + 2
        | .sknp x => if s.getKey ((s.getV x).setWidth 4) = false then s.pc.toNat + 4 else s.pc.toNat + 2
        | .jp nnn | .call nnn => nnn.toNat
        | .jpV0 nnn => nnn.toNat + (s.getV 0).toNat
        | .ret => (s.stack[s.sp.val - 1]'(by omega)).toNat + 2
        | .nop | .cls | .ldI _ | .ldImm _ _ | .addImm _ _ | .rnd _ _ | .ldReg _ _ | .or _ _ | .and _ _ | .xor _ _
        | .addReg _ _ | .sub _ _ | .shr _ _ | .subn _ _ | .shl _ _ | .drw _ _ _ | .ldVxDt _ | .ldVxK _ | .ldDtVx _
        | .ldStVx _ | .addIVx _ | .ldFVx _ | .ldBVx _ | .ldMemVx _ | .ldVxMem _ => s.pc.toNat + 2
    else t.pc = s.pc

/-! ## Frames over all instructions -/

/-- FRAME of the general registers (R12, R20): an instruction writes only its destination registers, VF among them for the
flag writers. -/
def Obligations.RegistersKeptOutsideDestinations : Prop :=
  ∀ (i : Instr) (s t : State) (r : Reg), exec i s = .next t → r ∉ destinations i → t.getV r = s.getV r

/-- FRAME of memory (R31, R37): an instruction changes no byte outside the ones it stores to, `storeCount i` bytes from
address I; one that stores nothing changes no byte. -/
def Obligations.MemoryKeptOutsideStores : Prop :=
  ∀ (i : Instr) (s t : State) (a : Nat), exec i s = .next t →
    ¬(s.i.toNat ≤ a ∧ a < s.i.toNat + storeCount i) → t.mem.read a = s.mem.read a

/-- FRAME of I, the stack and SP (R21–R23): I changes only by Annn, Fx1E and Fx29; stack entries only by 2nnn; SP only by
2nnn and 00EE. -/
def Obligations.IndexAndStackWriters : Prop :=
  ∀ (i : Instr) (s t : State), exec i s = .next t →
    (t.i ≠ s.i → (∃ nnn, i = .ldI nnn) ∨ (∃ x, i = .addIVx x) ∨ ∃ x, i = .ldFVx x) ∧
    (t.stack ≠ s.stack → ∃ nnn, i = .call nnn) ∧
    (t.sp ≠ s.sp → i = .ret ∨ ∃ nnn, i = .call nnn)

/-- FRAME of the timers, screen, keys, wait marker and fault record (R24–R26, R28–R30): DT changes only by Fx15, ST only by
Fx18, pixels and redraw only by 00E0 and Dxyn, which never clear redraw, the wait marker only by Fx0A, the keys by no
instruction, and a recorded fault is cleared by none. The model's own draw counter moves only by Cxkk (log 8). -/
def Obligations.TimerScreenKeyWriters : Prop :=
  ∀ (i : Instr) (s t : State), exec i s = .next t →
    (t.dt ≠ s.dt → ∃ x, i = .ldDtVx x) ∧
    (t.st ≠ s.st → ∃ x, i = .ldStVx x) ∧
    (t.fb ≠ s.fb → i = .cls ∨ ∃ x y n, i = .drw x y n) ∧
    (t.redraw ≠ s.redraw → t.redraw = true ∧ (i = .cls ∨ ∃ x y n, i = .drw x y n)) ∧
    (t.wait ≠ s.wait → ∃ x, i = .ldVxK x ∧ t.wait = some x) ∧
    t.keys = s.keys ∧
    (s.fault ≠ none → t.fault ≠ none) ∧
    (t.draws ≠ s.draws → ∃ x kk, i = .rnd x kk)

/-- "sound timer is write-only from the instruction set's perspective" (R24, R103): whatever ST holds, an instruction does the
same to everything else, and ST itself is kept or, by Fx18, overwritten. -/
def Obligations.SoundTimerIsWriteOnly : Prop :=
  ∀ (i : Instr) (s t : State) (b : Byte), exec i s = .next t →
    exec i { s with st := b } = .next { t with st := match i with | .ldStVx _ => t.st | _ => b }

/-- The interpreter "is deterministic apart from the explicit random-number instruction" (R79): which draw comes next changes
nothing an instruction other than RND does. It holds for every value of the draws. -/
def Obligations.OnlyRndDependsOnDraws : Prop :=
  ∀ (i : Instr) (s t : State) (n : Nat), (∀ x kk, i ≠ .rnd x kk) → exec i s = .next t →
    exec i { s with draws := n } = .next { t with draws := n }

/-! ## Invariants -/

/-- The invariant holds at reset. -/
def Obligations.InvariantHoldsAtReset : Prop := Inv State.reset

/-- The invariant holds after power-on, whatever FONT is and whatever is drawn; the draw of I is one I can hold (log 6). -/
def Obligations.InvariantHoldsAtPowerOn : Prop := ∀ d : PowerOn, Inv (State.powerOn d)

/-- AN INVARIANT THAT EVERY STEP KEEPS: canonical memory; `I ≤ 0xFFF` (R21); `pc ≤ 0x10FE` (R19); stack entries in use
≤ 0xFFE (R22); a recorded fault names the `pc`, is no ROM_TOO_LARGE and excludes a key-wait (R60, R110, R111). -/
def Obligations.StepKeepsInvariant : Prop := ∀ s t : State, Inv s → step s = .next t → Inv t

/-- Every host command keeps the invariant, load_rom with any bytes among them. -/
def Obligations.CommandsKeepInvariant : Prop :=
  ∀ (c : Command) (p q : Session), Inv p.core → p.perform c = .next q → Inv q.core

/-- In every state any sequence of host commands reaches from power-on, with any FONT, any ROM and any draws, the invariant
holds. -/
def Obligations.EveryRunKeepsInvariant : Prop :=
  ∀ (d : PowerOn) (cs : List Command), Inv (Session.run cs { core := State.powerOn d, fresh := true }).core

/-- R129: what reset leaves. Under ZERO_INIT = true `pc = 0x200`, the font at 0x000–0x04F, and every other element 0 or none;
under false the same pc, SP, wait, fault, keys and font, whatever FONT is. (The zeros are the spec's own choice D2: log 5. The
draw of I is limited to 12 bits: log 6. The draw counter is the model's own: log 8.) -/
def Obligations.ResetLeaves : Prop :=
  (State.reset.pc = 0x200 ∧ State.reset.sp = 0 ∧ State.reset.wait = none ∧ State.reset.fault = none ∧
    (∀ r, State.reset.getV r = 0) ∧ State.reset.i = 0 ∧ State.reset.dt = 0 ∧ State.reset.st = 0 ∧
    (∀ j : Fin 16, State.reset.stack[j.val] = 0) ∧ (∀ k < 2048, State.reset.fb.pixelAt k = false) ∧
    State.reset.redraw = false ∧ (∀ k, State.reset.getKey k = false) ∧
    ∀ a < 4096, State.reset.mem.read a = if a < 80 then (defaultFont[a]?).getD 0 else 0) ∧
  State.powerOn PowerOn.zero = State.reset ∧
  ∀ d : PowerOn,
    (State.powerOn d).pc = 0x200 ∧ (State.powerOn d).sp = 0 ∧ (State.powerOn d).wait = none ∧
    (State.powerOn d).fault = none ∧ (∀ k, (State.powerOn d).getKey k = false) ∧
    (∀ (a : Nat) (h : a < 80), (State.powerOn d).mem.read a = d.font[a]) ∧
    ∀ (a : Nat) (h : a < d.ram.length), a < 4016 → (State.powerOn d).mem.read (0x050 + a) = d.ram[a]

/-! ## The fixed and address instructions

Here and below a clause `decode … = .ok …` gives a rule's own encoding. All opcode values but 0000, 00E0, Annn and the top
nibble F are marked by the spec as from general knowledge (D10, log 9). -/

/-- R68: NOP, the word 0x0000 alone, only advances `pc`. -/
def Obligations.NopOnlyAdvances : Prop :=
  (∀ w : Word, decode w = .ok .nop ↔ w = 0x0000) ∧ ∀ s : State, exec .nop s = .next { s with pc := s.pc + 2 }

/-- R69: CLS, the word 0x00E0 alone, unsets every pixel and raises redraw. -/
def Obligations.ClsClearsTheScreen : Prop :=
  (∀ w : Word, decode w = .ok .cls ↔ w = 0x00E0) ∧
  ∀ s : State, ∃ t, exec .cls s = .next t ∧ (∀ k < 2048, t.fb.pixelAt k = false) ∧
    t = { s with fb := t.fb, redraw := true, pc := s.pc + 2 }

/-- R70: RET, the word 0x00EE alone, pops and resumes two bytes past the popped address; with SP = 0 it raises
STACK_UNDERFLOW with info 0. -/
def Obligations.RetPopsAndResumes : Prop :=
  (∀ w : Word, decode w = .ok .ret ↔ w = 0x00EE) ∧
  (∀ s : State, s.sp.val = 0 → exec .ret s = .next { s with fault := some ⟨.stackUnderflow, s.pc, 0⟩ }) ∧
  ∀ (s : State) (k : Nat) (hk : k < 16), s.sp.val = k + 1 →
    exec .ret s = .next { s with sp := ⟨k, by omega⟩, pc := s.stack[k] + 2 }

/-- R71: JP sets `pc`, and nothing else; after a jump to 0xFFF the next step raises FETCH_OUT_OF_RANGE. -/
def Obligations.JpSetsPc : Prop :=
  (∀ nnn : Addr, decode (wordNnn 0x1 nnn) = .ok (.jp nnn)) ∧
  (∀ (nnn : Addr) (s : State), exec (.jp nnn) s = .next { s with pc := nnn.setWidth 16 }) ∧
  ∀ s t : State, s.fault = none → s.wait = none → exec (.jp 0xFFF) s = .next t →
    step t = .next { t with fault := some ⟨.fetchOutOfRange, 0x0FFF, 0xFFF⟩ }

/-- R72: CALL pushes its own address and jumps; with 16 entries in use it raises STACK_OVERFLOW with info 0. -/
def Obligations.CallPushesItsAddress : Prop :=
  (∀ nnn : Addr, decode (wordNnn 0x2 nnn) = .ok (.call nnn)) ∧
  (∀ (nnn : Addr) (s : State), s.sp.val = 16 →
    exec (.call nnn) s = .next { s with fault := some ⟨.stackOverflow, s.pc, 0⟩ }) ∧
  ∀ (nnn : Addr) (s : State) (h : s.sp.val < 16),
    exec (.call nnn) s =
      .next { s with stack := s.stack.set s.sp.val s.pc h, sp := ⟨s.sp.val + 1, by omega⟩, pc := nnn.setWidth 16 }

/-- R73: LD I, nnn zero-extends the address into I. -/
def Obligations.LdISetsIndex : Prop :=
  (∀ nnn : Addr, decode (wordNnn 0xA nnn) = .ok (.ldI nnn)) ∧
  ∀ (nnn : Addr) (s : State), exec (.ldI nnn) s = .next { s with i := nnn.setWidth 16, pc := s.pc + 2 }

/-- R74: JP V0, nnn jumps to the exact sum nnn + V0; after a target above 0xFFE the next step raises FETCH_OUT_OF_RANGE. -/
def Obligations.JpV0AddsOffset : Prop :=
  (∀ nnn : Addr, decode (wordNnn 0xB nnn) = .ok (.jpV0 nnn)) ∧
  ∀ (nnn : Addr) (s : State), ∃ t, exec (.jpV0 nnn) s = .next t ∧ t = { s with pc := t.pc } ∧
    t.pc.toNat = nnn.toNat + (s.getV 0).toNat ∧
    (s.fault = none → s.wait = none → t.pc.toNat > 0x0FFE →
      step t = .next { t with fault := some ⟨.fetchOutOfRange, t.pc, nnn.toNat + (s.getV 0).toNat⟩ })

/-! ## The register instructions -/

/-- R75, R76, R81, R82: the four compare-and-skip instructions move `pc` by 4 when the condition holds, else by 2, and change
nothing else. -/
def Obligations.CompareAndSkip : Prop :=
  (∀ (x : Reg) (kk : Byte), decode (wordXkk 0x3 x kk) = .ok (.seImm x kk) ∧
    decode (wordXkk 0x4 x kk) = .ok (.sneImm x kk)) ∧
  (∀ x y : Reg, decode (wordXyn 0x5 x y 0) = .ok (.seReg x y) ∧ decode (wordXyn 0x9 x y 0) = .ok (.sneReg x y)) ∧
  (∀ (x : Reg) (kk : Byte) (s : State),
    exec (.seImm x kk) s = .next { s with pc := if s.getV x = kk then s.pc + 4 else s.pc + 2 } ∧
    exec (.sneImm x kk) s = .next { s with pc := if s.getV x ≠ kk then s.pc + 4 else s.pc + 2 }) ∧
  ∀ (x y : Reg) (s : State),
    exec (.seReg x y) s = .next { s with pc := if s.getV x = s.getV y then s.pc + 4 else s.pc + 2 } ∧
    exec (.sneReg x y) s = .next { s with pc := if s.getV x ≠ s.getV y then s.pc + 4 else s.pc + 2 }

/-- R77, R83: LD Vx, kk and LD Vx, Vy write the destination and no flag. -/
def Obligations.LoadRegister : Prop :=
  (∀ (x : Reg) (kk : Byte), decode (wordXkk 0x6 x kk) = .ok (.ldImm x kk)) ∧
  (∀ x y : Reg, decode (wordXyn 0x8 x y 0x0) = .ok (.ldReg x y)) ∧
  (∀ (x : Reg) (kk : Byte) (s : State), ∃ t, exec (.ldImm x kk) s = .next t ∧
    RegistersBecome s t (fun r => if r = x then kk else s.getV r) (s.pc + 2)) ∧
  ∀ (x y : Reg) (s : State), ∃ t, exec (.ldReg x y) s = .next t ∧
    RegistersBecome s t (fun r => if r = x then s.getV y else s.getV r) (s.pc + 2)

/-- R78: ADD Vx, kk wraps modulo 256 and does not touch VF, unless x = F, where the sum goes to VF. -/
def Obligations.AddImmediateWraps : Prop :=
  (∀ (x : Reg) (kk : Byte), decode (wordXkk 0x7 x kk) = .ok (.addImm x kk)) ∧
  ∀ (x : Reg) (kk : Byte) (s : State), ∃ t, exec (.addImm x kk) s = .next t ∧
    RegistersBecome s t
      (fun r => if r = x then BitVec.ofNat 8 (((s.getV x).toNat + kk.toNat) % 256) else s.getV r) (s.pc + 2)

/-- R79: RND writes a drawn byte ANDed with kk, so `V[x] & ~kk = 0`, and draws once. The byte is free: this holds for every
value of the draw (log 8). -/
def Obligations.RndMasksADraw : Prop :=
  (∀ (x : Reg) (kk : Byte), decode (wordXkk 0xC x kk) = .ok (.rnd x kk)) ∧
  ∀ (x : Reg) (kk : Byte) (s : State), ∃ t, exec (.rnd x kk) s = .next t ∧
    (∀ r, t.getV r = if r = x then Config.drawByte s.draws &&& kk else s.getV r) ∧
    t.getV x &&& ~~~kk = 0 ∧
    t = { s with v := t.v, pc := s.pc + 2, draws := s.draws + 1 }

/-- R84, R85, R86: OR, AND and XOR write the destination and no flag. -/
def Obligations.BitwiseOperations : Prop :=
  (∀ x y : Reg, decode (wordXyn 0x8 x y 0x1) = .ok (.or x y) ∧ decode (wordXyn 0x8 x y 0x2) = .ok (.and x y) ∧
    decode (wordXyn 0x8 x y 0x3) = .ok (.xor x y)) ∧
  ∀ (x y : Reg) (s : State),
    (∃ t, exec (.or x y) s = .next t ∧
      RegistersBecome s t (fun r => if r = x then s.getV x ||| s.getV y else s.getV r) (s.pc + 2)) ∧
    (∃ t, exec (.and x y) s = .next t ∧
      RegistersBecome s t (fun r => if r = x then s.getV x &&& s.getV y else s.getV r) (s.pc + 2)) ∧
    ∃ t, exec (.xor x y) s = .next t ∧
      RegistersBecome s t (fun r => if r = x then s.getV x ^^^ s.getV y else s.getV r) (s.pc + 2)

/-- R87: ADD Vx, Vy wraps modulo 256; VF, written last, is 1 on a sum above 255, else 0. -/
def Obligations.AddReportsCarry : Prop :=
  (∀ x y : Reg, decode (wordXyn 0x8 x y 0x4) = .ok (.addReg x y)) ∧
  ∀ (x y : Reg) (s : State), ∃ t, exec (.addReg x y) s = .next t ∧
    RegistersBecome s t
      (fun r =>
        if r = 15 then (if (s.getV x).toNat + (s.getV y).toNat > 255 then 1 else 0)
        else if r = x then BitVec.ofNat 8 (((s.getV x).toNat + (s.getV y).toNat) % 256) else s.getV r)
      (s.pc + 2)

/-- R88, R89: SUB and SUBN wrap modulo 256; VF, written last, is NOT borrow. -/
def Obligations.SubtractReportsNotBorrow : Prop :=
  (∀ x y : Reg, decode (wordXyn 0x8 x y 0x5) = .ok (.sub x y) ∧ decode (wordXyn 0x8 x y 0x7) = .ok (.subn x y)) ∧
  ∀ (x y : Reg) (s : State),
    (∃ t, exec (.sub x y) s = .next t ∧
      RegistersBecome s t
        (fun r =>
          if r = 15 then (if (s.getV x).toNat ≥ (s.getV y).toNat then 1 else 0)
          else if r = x then BitVec.ofNat 8 (((s.getV x).toNat + 256 - (s.getV y).toNat) % 256) else s.getV r)
        (s.pc + 2)) ∧
    ∃ t, exec (.subn x y) s = .next t ∧
      RegistersBecome s t
        (fun r =>
          if r = 15 then (if (s.getV y).toNat ≥ (s.getV x).toNat then 1 else 0)
          else if r = x then BitVec.ofNat 8 (((s.getV y).toNat + 256 - (s.getV x).toNat) % 256) else s.getV r)
        (s.pc + 2)

/-- R90, R91, R92: the shifts read Vx or Vy by SHIFT_SOURCE, before any write, move one place and leave the bit shifted out
in VF, written last. It holds for both values of SHIFT_SOURCE (log 3). -/
def Obligations.ShiftsReportTheBitOut : Prop :=
  (∀ x y : Reg, decode (wordXyn 0x8 x y 0x6) = .ok (.shr x y) ∧ decode (wordXyn 0x8 x y 0xE) = .ok (.shl x y)) ∧
  ∀ (x y : Reg) (s : State) (a : Byte),
    a = (match Config.shiftSource with | .vx => s.getV x | .vy => s.getV y) →
    (∃ t, exec (.shr x y) s = .next t ∧
      RegistersBecome s t
        (fun r =>
          if r = 15 then BitVec.ofNat 8 (a.toNat % 2) else if r = x then BitVec.ofNat 8 (a.toNat / 2) else s.getV r)
        (s.pc + 2)) ∧
    ∃ t, exec (.shl x y) s = .next t ∧
      RegistersBecome s t
        (fun r =>
          if r = 15 then BitVec.ofNat 8 (a.toNat / 128)
          else if r = x then BitVec.ofNat 8 (a.toNat * 2 % 256) else s.getV r)
        (s.pc + 2)

/-! ## Drawing -/

/-- R93–R97: DRW flips exactly the pixels of the screen under a 1-bit of the sprite, whose n bytes start at I, leaves in VF
whether such a pixel was set, raises redraw and changes nothing else; where a byte lies past 0xFFF it raises
MEM_OUT_OF_RANGE with info 0x1000 instead. -/
def Obligations.DrwFlipsTheSprite : Prop :=
  (∀ (x y : Reg) (n : Nibble), decode (wordXyn 0xD x y n) = .ok (.drw x y n)) ∧
  (∀ (x y : Reg) (n : Nibble) (s : State), n.toNat > 0 → s.i.toNat + n.toNat - 1 > 0x0FFF →
    exec (.drw x y n) s = .next { s with fault := some ⟨.memOutOfRange, s.pc, 0x1000⟩ }) ∧
  ∀ (x y : Reg) (n : Nibble) (s : State), n.toNat = 0 ∨ s.i.toNat + n.toNat - 1 ≤ 0x0FFF →
    ∃ t, exec (.drw x y n) s = .next t ∧
      (∀ px py : Nat, px < 64 → py < 32 →
        t.fb.pixelAt (py * 64 + px) =
          (s.fb.pixelAt (py * 64 + px) ^^
            spriteCovers s.mem s.i.toNat n.toNat (s.getV x).toNat (s.getV y).toNat px py)) ∧
      (t.getV 15 = 1 ∨ t.getV 15 = 0) ∧
      (t.getV 15 = 1 ↔ ∃ px py : Nat, px < 64 ∧ py < 32 ∧ s.fb.pixelAt (py * 64 + px) = true ∧
        spriteCovers s.mem s.i.toNat n.toNat (s.getV x).toNat (s.getV y).toNat px py = true) ∧
      (∀ r, r ≠ 15 → t.getV r = s.getV r) ∧
      t = { s with fb := t.fb, v := t.v, redraw := true, pc := s.pc + 2 }

/-- "drawing the same sprite at the same coordinates twice in succession restores the pre-draw framebuffer region to its
original state and the redraw flag is set both times" (95_test_vectors.md W10; R93). The second draw may name other registers,
since the first may overwrite a coordinate held in VF; what it needs is the same coordinates, I, memory and screen. -/
def Obligations.DrawTwiceRestoresTheScreen : Prop :=
  ∀ (x y x' y' : Reg) (n : Nibble) (s : State), n.toNat = 0 ∨ s.i.toNat + n.toNat - 1 ≤ 0x0FFF →
    ∃ t, exec (.drw x y n) s = .next t ∧ t.redraw = true ∧
      ∀ u : State, u.fb = t.fb → u.mem = t.mem → u.i = t.i → u.getV x' = s.getV x → u.getV y' = s.getV y →
        ∃ w, exec (.drw x' y' n) u = .next w ∧ w.redraw = true ∧ w.fb = s.fb

/-! ## Keys and the F family -/

/-- R98, R99, R100: SKP and SKNP skip by the key Vx names; above 0xF they raise KEY_OUT_OF_RANGE with info Vx. -/
def Obligations.KeyTestsSkip : Prop :=
  (∀ x : Reg, decode (wordXkk 0xE x 0x9E) = .ok (.skp x) ∧ decode (wordXkk 0xE x 0xA1) = .ok (.sknp x)) ∧
  (∀ (x : Reg) (s : State), (s.getV x).toNat > 0xF →
    exec (.skp x) s = .next { s with fault := some ⟨.keyOutOfRange, s.pc, (s.getV x).toNat⟩ } ∧
    exec (.sknp x) s = .next { s with fault := some ⟨.keyOutOfRange, s.pc, (s.getV x).toNat⟩ }) ∧
  ∀ (x : Reg) (s : State) (h : (s.getV x).toNat < 16),
    exec (.skp x) s = .next { s with pc := if s.keys[(s.getV x).toNat] = true then s.pc + 4 else s.pc + 2 } ∧
    exec (.sknp x) s = .next { s with pc := if s.keys[(s.getV x).toNat] = false then s.pc + 4 else s.pc + 2 }

/-- R101, R102, R103: the timer instructions. -/
def Obligations.TimerInstructions : Prop :=
  (∀ x : Reg, decode (wordXkk 0xF x 0x07) = .ok (.ldVxDt x) ∧ decode (wordXkk 0xF x 0x15) = .ok (.ldDtVx x) ∧
    decode (wordXkk 0xF x 0x18) = .ok (.ldStVx x)) ∧
  ∀ (x : Reg) (s : State),
    (∃ t, exec (.ldVxDt x) s = .next t ∧
      RegistersBecome s t (fun r => if r = x then s.dt else s.getV r) (s.pc + 2)) ∧
    exec (.ldDtVx x) s = .next { s with dt := s.getV x, pc := s.pc + 2 } ∧
    exec (.ldStVx x) s = .next { s with st := s.getV x, pc := s.pc + 2 }

/-- R104: LD Vx, K records the wait with `pc` already advanced and writes no register; every step is then a no-op until a
key_down, which writes the key code to Vx and ends the wait. -/
def Obligations.KeyWaitSuspends : Prop :=
  (∀ x : Reg, decode (wordXkk 0xF x 0x0A) = .ok (.ldVxK x)) ∧
  (∀ (x : Reg) (s : State), exec (.ldVxK x) s = .next { s with wait := some x, pc := s.pc + 2 }) ∧
  ∀ (x : Reg) (s t : State) (k : Key), s.fault = none → exec (.ldVxK x) s = .next t →
    step t = .next t ∧ ((keyDown k t).getV x).toNat = k.toNat ∧ (keyDown k t).wait = none ∧ (keyDown k t).pc = t.pc

/-- R105: ADD I, Vx adds exactly and writes no flag; a sum above 0xFFF raises INDEX_OUT_OF_RANGE with the sum as info. -/
def Obligations.AddIndexIsExact : Prop :=
  (∀ x : Reg, decode (wordXkk 0xF x 0x1E) = .ok (.addIVx x)) ∧
  (∀ (x : Reg) (s : State), s.i.toNat + (s.getV x).toNat > 0x0FFF →
    exec (.addIVx x) s = .next { s with fault := some ⟨.indexOutOfRange, s.pc, s.i.toNat + (s.getV x).toNat⟩ }) ∧
  ∀ (x : Reg) (s : State), s.i.toNat + (s.getV x).toNat ≤ 0x0FFF →
    ∃ t, exec (.addIVx x) s = .next t ∧ t.i.toNat = s.i.toNat + (s.getV x).toNat ∧
      t = { s with i := t.i, pc := s.pc + 2 }

/-- R106: LD F, Vx points I at the glyph of the low nibble of Vx. -/
def Obligations.FontAddress : Prop :=
  (∀ x : Reg, decode (wordXkk 0xF x 0x29) = .ok (.ldFVx x)) ∧
  ∀ (x : Reg) (s : State), ∃ t, exec (.ldFVx x) s = .next t ∧ t.i.toNat = 5 * ((s.getV x).toNat % 16) ∧
    t = { s with i := t.i, pc := s.pc + 2 }

/-- R107: LD B, Vx stores the three decimal digits at I, I+1, I+2 and changes nothing else; past 0xFFF it raises
MEM_OUT_OF_RANGE with info 0x1000. -/
def Obligations.BcdStoresThreeDigits : Prop :=
  (∀ x : Reg, decode (wordXkk 0xF x 0x33) = .ok (.ldBVx x)) ∧
  (∀ (x : Reg) (s : State), s.i.toNat + 2 > 0x0FFF →
    exec (.ldBVx x) s = .next { s with fault := some ⟨.memOutOfRange, s.pc, 0x1000⟩ }) ∧
  ∀ (x : Reg) (s : State), s.i.toNat + 2 ≤ 0x0FFF →
    ∃ t, exec (.ldBVx x) s = .next t ∧
      (t.mem.read s.i.toNat).toNat = (s.getV x).toNat / 100 ∧
      (t.mem.read (s.i.toNat + 1)).toNat = (s.getV x).toNat / 10 % 10 ∧
      (t.mem.read (s.i.toNat + 2)).toNat = (s.getV x).toNat % 10 ∧
      (∀ a : Nat, ¬(s.i.toNat ≤ a ∧ a < s.i.toNat + 3) → t.mem.read a = s.mem.read a) ∧
      t = { s with mem := t.mem, pc := s.pc + 2 }

/-- R108: LD [I], Vx stores V0..Vx at I.. and changes nothing else; past 0xFFF it raises MEM_OUT_OF_RANGE with info 0x1000. -/
def Obligations.DumpStoresRegisters : Prop :=
  (∀ x : Reg, decode (wordXkk 0xF x 0x55) = .ok (.ldMemVx x)) ∧
  (∀ (x : Reg) (s : State), s.i.toNat + x.toNat > 0x0FFF →
    exec (.ldMemVx x) s = .next { s with fault := some ⟨.memOutOfRange, s.pc, 0x1000⟩ }) ∧
  ∀ (x : Reg) (s : State), s.i.toNat + x.toNat ≤ 0x0FFF →
    ∃ t, exec (.ldMemVx x) s = .next t ∧
      (∀ r : Reg, r.toNat ≤ x.toNat → t.mem.read (s.i.toNat + r.toNat) = s.getV r) ∧
      (∀ a : Nat, ¬(s.i.toNat ≤ a ∧ a < s.i.toNat + (x.toNat + 1)) → t.mem.read a = s.mem.read a) ∧
      t = { s with mem := t.mem, pc := s.pc + 2 }

/-- R109: LD Vx, [I] loads V0..Vx from I.. and changes nothing else; past 0xFFF it raises MEM_OUT_OF_RANGE with info
0x1000. -/
def Obligations.LoadFillsRegisters : Prop :=
  (∀ x : Reg, decode (wordXkk 0xF x 0x65) = .ok (.ldVxMem x)) ∧
  (∀ (x : Reg) (s : State), s.i.toNat + x.toNat > 0x0FFF →
    exec (.ldVxMem x) s = .next { s with fault := some ⟨.memOutOfRange, s.pc, 0x1000⟩ }) ∧
  ∀ (x : Reg) (s : State), s.i.toNat + x.toNat ≤ 0x0FFF →
    ∃ t, exec (.ldVxMem x) s = .next t ∧
      RegistersBecome s t
        (fun r => if r.toNat ≤ x.toNat then s.mem.read (s.i.toNat + r.toNat) else s.getV r) (s.pc + 2)

/-- "register-dump to memory at I followed by register-load from the same I restores the original register values for V0..Vx"
(R109), whatever the registers hold in between. -/
def Obligations.DumpThenLoadRestores : Prop :=
  ∀ (x : Reg) (s : State), s.i.toNat + x.toNat ≤ 0x0FFF →
    ∃ t, exec (.ldMemVx x) s = .next t ∧
      ∀ u : State, u.i = t.i → u.mem = t.mem →
        ∃ w, exec (.ldVxMem x) u = .next w ∧ ∀ r : Reg, r.toNat ≤ x.toNat → w.getV r = s.getV r

/-- R43: what Fx33, Fx55 or load_rom writes is seen by every later fetch, "starting with the fetch of the very next
instruction". After each of them, the next state `t` itself and every later state with its memory fetch the written bytes
wherever `pc` and `pc + 1` meet them, one or both, and the old bytes elsewhere. -/
def Obligations.StoredCodeIsFetched : Prop :=
  (∀ (x : Reg) (s : State), s.i.toNat + 2 ≤ 0x0FFF →
    ∃ t, exec (.ldBVx x) s = .next t ∧ t.pc = s.pc + 2 ∧
      FetchSees t.mem fun a =>
        if a = s.i.toNat then BitVec.ofNat 8 ((s.getV x).toNat / 100)
        else if a = s.i.toNat + 1 then BitVec.ofNat 8 ((s.getV x).toNat / 10 % 10)
        else if a = s.i.toNat + 2 then BitVec.ofNat 8 ((s.getV x).toNat % 10)
        else s.mem.read a) ∧
  (∀ (x : Reg) (s : State), s.i.toNat + x.toNat ≤ 0x0FFF →
    ∃ t, exec (.ldMemVx x) s = .next t ∧ t.pc = s.pc + 2 ∧
      FetchSees t.mem fun a =>
        if s.i.toNat ≤ a ∧ a ≤ s.i.toNat + x.toNat then s.getV (BitVec.ofNat 4 (a - s.i.toNat)) else s.mem.read a) ∧
  ∀ (bytes : List Byte) (s : State), s.fault = none → bytes.length ≤ 3584 →
    ∃ t, loadRom bytes s = .next t ∧ t.pc = s.pc ∧
      FetchSees t.mem fun a =>
        if h : 0x200 ≤ a ∧ a < 0x200 + bytes.length then bytes[a - 0x200] else s.mem.read a

/-! ## Host commands -/

/-- R117: tick_timers counts each timer down by one unless it is 0, during a key-wait too, and changes nothing else. -/
def Obligations.TickCountsDown : Prop :=
  ∀ s : State, s.fault = none →
    (tickTimers s).dt.toNat = s.dt.toNat - 1 ∧ (tickTimers s).st.toNat = s.st.toNat - 1 ∧
    tickTimers s = { s with dt := (tickTimers s).dt, st := (tickTimers s).st }

/-- R119: key_down sets the key, and a pending wait gets the key code and ends; nothing else changes. -/
def Obligations.KeyDownResolvesWait : Prop :=
  (∀ (s : State) (k : Key), s.fault = none → s.wait = none →
    keyDown k s = { s with keys := s.keys.set k.toNat true k.isLt }) ∧
  ∀ (s : State) (k : Key) (x : Reg), s.fault = none → s.wait = some x →
    (∀ r, (keyDown k s).getV r = if r = x then k.setWidth 8 else s.getV r) ∧
    keyDown k s = { s with keys := s.keys.set k.toNat true k.isLt, v := (keyDown k s).v, wait := none }

/-- R120, R123: key_up clears the key and never ends a wait; clear_redraw clears redraw; nothing else changes. -/
def Obligations.KeyUpAndClearRedraw : Prop :=
  ∀ (s : State) (k : Key), s.fault = none →
    keyUp k s = { s with keys := s.keys.set k.toNat false k.isLt } ∧
    clearRedraw s = { s with redraw := false }

/-- R131: load_rom copies at most 3584 bytes to 0x200.. and changes nothing else; a longer ROM is refused as ROM_TOO_LARGE. -/
def Obligations.LoadRomCopies : Prop :=
  (∀ (s : State) (bytes : List Byte), s.fault = none → bytes.length > 3584 →
    loadRom bytes s = .refused (.romTooLarge bytes.length)) ∧
  ∀ (s : State) (bytes : List Byte), s.fault = none → bytes.length ≤ 3584 →
    ∃ t, loadRom bytes s = .next t ∧
      (∀ (k : Nat) (h : k < bytes.length), t.mem.read (0x200 + k) = bytes[k]) ∧
      (∀ a : Nat, ¬(0x200 ≤ a ∧ a < 0x200 + bytes.length) → t.mem.read a = s.mem.read a) ∧
      t = { s with mem := t.mem }

/-- R113, R132: a refused ROM changes nothing, records no fault and leaves load_rom callable; after any other command, and
after a load_rom that succeeded, a call of load_rom has no transition. -/
def Obligations.LoadRomOnlyOnceAndFirst : Prop :=
  (∀ (p : Session) (bytes : List Byte), p.fresh = true → p.core.fault = none → bytes.length > 3584 →
    p.perform (.loadRom bytes) = .refused (.romTooLarge bytes.length) ∧ Session.after (.loadRom bytes) p = p) ∧
  (∀ (p q : Session) (c : Command) (bytes : List Byte), p.perform c = .next q → q.core.fault = none →
    q.perform (.loadRom bytes) = .refused .loadRomOutOfContract)

/-- R112: once a fault is recorded no sequence of host commands changes anything, and step returns the record. -/
def Obligations.FaultIsTerminal : Prop :=
  ∀ (p : Session) (r : FaultRecord) (cs : List Command), p.core.fault = some r →
    (Session.run cs p).core = p.core ∧ stepReply (Session.run cs p).core = (p.core, some r)
end

