-- ==== Sys2Proof/Laws/Memory.lean ====
section
/-! SUPPORT. Memory: read after write, and every operation keeps the canonical form. -/

namespace Sys2Proof.Machine

@[simp] theorem Memory.read_nil (a : Nat) : Memory.read [] a = Memory.unlisted a := rfl

theorem Memory.read_cons (b : Nat) (w : Byte) (m : Memory) (a : Nat) :
    Memory.read ((b, w) :: m) a = if b = a then w else Memory.read m a := rfl

theorem Memory.read_insertCell_self (a : Nat) (v : Byte) (m : Memory) (h : ∀ c ∈ m, c.1 ≠ a) :
    Memory.read (Memory.insertCell a v m) a = v := by
  induction m with
  | nil => simp [Memory.insertCell, Memory.read_cons]
  | cons c m ih =>
    obtain ⟨b, w⟩ := c
    have hb : b ≠ a := h (b, w) (by simp)
    unfold Memory.insertCell
    split
    · simp [Memory.read_cons]
    · simp [Memory.read_cons, hb, ih fun c hc => h c (by simp [hc])]

theorem Memory.read_insertCell_ne (a c : Nat) (v : Byte) (m : Memory) (h : c ≠ a) :
    Memory.read (Memory.insertCell a v m) c = Memory.read m c := by
  induction m with
  | nil => simp [Memory.insertCell, Memory.read_cons, Ne.symm h]
  | cons d m ih =>
    obtain ⟨b, w⟩ := d
    unfold Memory.insertCell
    split
    · simp [Memory.read_cons, Ne.symm h]
    · simp [Memory.read_cons, ih]

theorem Memory.read_filter_ne (a c : Nat) (m : Memory) (h : c ≠ a) :
    Memory.read (m.filter fun d => !(d.1 == a)) c = Memory.read m c := by
  induction m with
  | nil => rfl
  | cons d m ih =>
    obtain ⟨b, w⟩ := d
    by_cases hb : b = a
    · subst hb
      simp [Memory.read_cons, Ne.symm h, ih]
    · simp [hb, Memory.read_cons, ih]

theorem Memory.read_of_absent (a : Nat) (m : Memory) (h : ∀ c ∈ m, c.1 ≠ a) : Memory.read m a = Memory.unlisted a := by
  induction m with
  | nil => rfl
  | cons d m ih =>
    obtain ⟨b, w⟩ := d
    have hb : b ≠ a := h (b, w) (by simp)
    simp [Memory.read_cons, hb, ih fun c hc => h c (by simp [hc])]

theorem Memory.filter_absent (a : Nat) (m : Memory) : ∀ c ∈ m.filter (fun d => !(d.1 == a)), c.1 ≠ a := by
  intro c hc
  simpa using (List.mem_filter.mp hc).2

/-- A read after a write to the same address gives the value written (R39, R41). -/
@[simp] theorem Memory.read_write_self (m : Memory) (a : Nat) (v : Byte) : (m.write a v).read a = v := by
  unfold Memory.write
  split
  · next h => rw [Memory.read_of_absent _ _ (Memory.filter_absent a m), h]
  · exact Memory.read_insertCell_self a v _ (Memory.filter_absent a m)

/-- A write leaves every other address alone. -/
theorem Memory.read_write_ne (m : Memory) (a c : Nat) (v : Byte) (h : c ≠ a) : (m.write a v).read c = m.read c := by
  unfold Memory.write
  split
  · exact Memory.read_filter_ne a c m h
  · rw [Memory.read_insertCell_ne a c v _ h, Memory.read_filter_ne a c m h]

theorem Memory.read_write (m : Memory) (a c : Nat) (v : Byte) :
    (m.write a v).read c = if c = a then v else m.read c := by
  by_cases h : c = a
  · subst h
    simp
  · simp [h, Memory.read_write_ne m a c v h]

/-- What a list of writes leaves at an address: the byte written there, else what was there. -/
theorem Memory.read_writeBytes (m : Memory) (a c : Nat) (bs : List Byte) :
    (m.writeBytes a bs).read c = if h : a ≤ c ∧ c < a + bs.length then bs[c - a]'(by omega) else m.read c := by
  induction bs generalizing m a with
  | nil => simp [Memory.writeBytes]
  | cons b bs ih =>
    rw [Memory.writeBytes, ih, Memory.read_write]
    by_cases hc : c = a
    · subst hc
      simp
    · by_cases hr : a + 1 ≤ c ∧ c < a + 1 + bs.length
      · have h1 : a ≤ c ∧ c < a + (bs.length + 1) := by omega
        have h2 : c - a = (c - (a + 1)) + 1 := by omega
        simp only [hr, h1, List.length_cons, and_self, dif_pos]
        simp only [h2, List.getElem_cons_succ]
      · have h1 : ¬(a ≤ c ∧ c < a + (bs.length + 1)) := by omega
        simp only [hr, h1, hc, List.length_cons, dif_neg, not_false_eq_true, if_false]

@[simp] theorem Memory.readBytes_length (m : Memory) (a n : Nat) : (m.readBytes a n).length = n := by
  simp [Memory.readBytes]

theorem Memory.readBytes_getElem (m : Memory) (a n k : Nat) (h : k < (m.readBytes a n).length) :
    (m.readBytes a n)[k] = m.read (a + k) := by
  simp [Memory.readBytes]

/-! ### The canonical form -/

@[simp] theorem Memory.wf_nil : Memory.wf [] := by simp [Memory.wf]

theorem Memory.mem_insertCell (a : Nat) (v : Byte) (m : Memory) (c : Host.Cell) :
    c ∈ Memory.insertCell a v m ↔ c = (a, v) ∨ c ∈ m := by
  induction m with
  | nil => simp [Memory.insertCell]
  | cons d m ih =>
    unfold Memory.insertCell
    split
    · simp
    · simp [ih]
      tauto

theorem Memory.pairwise_insertCell (a : Nat) (v : Byte) (m : Memory) (hm : m.Pairwise fun c d => c.1 < d.1)
    (h : ∀ c ∈ m, c.1 ≠ a) : (Memory.insertCell a v m).Pairwise fun c d => c.1 < d.1 := by
  induction m with
  | nil => simp [Memory.insertCell]
  | cons d m ih =>
    obtain ⟨b, w⟩ := d
    rw [List.pairwise_cons] at hm
    have hb : b ≠ a := h (b, w) (by simp)
    unfold Memory.insertCell
    split
    · next hab =>
      refine List.pairwise_cons.mpr ⟨?_, List.pairwise_cons.mpr hm⟩
      intro c hc
      rcases List.mem_cons.mp hc with rfl | hc
      · exact hab
      · exact Nat.lt_trans hab (hm.1 c hc)
    · next hab =>
      refine List.pairwise_cons.mpr ⟨?_, ih hm.2 fun c hc => h c (by simp [hc])⟩
      intro c hc
      rcases (Memory.mem_insertCell a v m c).mp hc with rfl | hc
      · show b < a
        omega
      · exact hm.1 c hc

/-- A write inside 0x000–0xFFF keeps the canonical form. -/
theorem Memory.wf_write (m : Memory) (a : Nat) (v : Byte) (hm : m.wf) (ha : a < 4096) : (m.write a v).wf := by
  have hf : Memory.wf (m.filter fun d => !(d.1 == a)) :=
    ⟨hm.1.filter _, fun c hc => hm.2 c (List.mem_filter.mp hc).1⟩
  unfold Memory.write
  split
  · exact hf
  · next hv =>
    refine ⟨Memory.pairwise_insertCell a v _ hf.1 (Memory.filter_absent a m), ?_⟩
    intro c hc
    rcases (Memory.mem_insertCell a v _ c).mp hc with rfl | hc
    · exact ⟨ha, hv⟩
    · exact hf.2 c hc

/-- Writes inside 0x000–0xFFF keep the canonical form. -/
theorem Memory.wf_writeBytes (m : Memory) (a : Nat) (bs : List Byte) (hm : m.wf) (ha : bs = [] ∨ a + bs.length ≤ 4096) :
    (m.writeBytes a bs).wf := by
  induction bs generalizing m a with
  | nil => exact hm
  | cons b bs ih =>
    have ha' : a + (bs.length + 1) ≤ 4096 := by simpa using ha
    exact ih _ _ (Memory.wf_write m a b hm (by omega)) (.inr (by omega))

theorem accessFits_iff (base n : Nat) : accessFits base n = true ↔ n = 0 ∨ base + n ≤ 4096 := by
  simp only [accessFits, decide_eq_true_eq]
  omega

end Sys2Proof.Machine
end

