-- ==== Sys2Proof/Laws/State.lean ====
section
/-! SUPPORT. One lemma per field per update of State, each true by rfl, so that no proof unfolds a record update. -/

namespace Sys2Proof.Machine

/-! ### setV -/

@[simp] theorem State.setV_v (s : State) (x : Reg) (r : Byte) : (s.setV x r).v = s.v.set x.toNat r x.isLt := rfl
@[simp] theorem State.setV_i (s : State) (x : Reg) (r : Byte) : (s.setV x r).i = s.i := rfl
@[simp] theorem State.setV_pc (s : State) (x : Reg) (r : Byte) : (s.setV x r).pc = s.pc := rfl
@[simp] theorem State.setV_stack (s : State) (x : Reg) (r : Byte) : (s.setV x r).stack = s.stack := rfl
@[simp] theorem State.setV_sp (s : State) (x : Reg) (r : Byte) : (s.setV x r).sp = s.sp := rfl
@[simp] theorem State.setV_dt (s : State) (x : Reg) (r : Byte) : (s.setV x r).dt = s.dt := rfl
@[simp] theorem State.setV_st (s : State) (x : Reg) (r : Byte) : (s.setV x r).st = s.st := rfl
@[simp] theorem State.setV_mem (s : State) (x : Reg) (r : Byte) : (s.setV x r).mem = s.mem := rfl
@[simp] theorem State.setV_fb (s : State) (x : Reg) (r : Byte) : (s.setV x r).fb = s.fb := rfl
@[simp] theorem State.setV_redraw (s : State) (x : Reg) (r : Byte) : (s.setV x r).redraw = s.redraw := rfl
@[simp] theorem State.setV_keys (s : State) (x : Reg) (r : Byte) : (s.setV x r).keys = s.keys := rfl
@[simp] theorem State.setV_wait (s : State) (x : Reg) (r : Byte) : (s.setV x r).wait = s.wait := rfl
@[simp] theorem State.setV_fault (s : State) (x : Reg) (r : Byte) : (s.setV x r).fault = s.fault := rfl
@[simp] theorem State.setV_draws (s : State) (x : Reg) (r : Byte) : (s.setV x r).draws = s.draws := rfl
@[simp] theorem State.setV_getKey (s : State) (x : Reg) (r : Byte) (z : Key) : (s.setV x r).getKey z = s.getKey z := rfl

/-! ### setVFlag -/

@[simp] theorem State.setVFlag_v (s : State) (x : Reg) (r f : Byte) : (s.setVFlag x r f).v = (s.v.set x.toNat r x.isLt).set vf.toNat f vf.isLt := rfl
@[simp] theorem State.setVFlag_i (s : State) (x : Reg) (r f : Byte) : (s.setVFlag x r f).i = s.i := rfl
@[simp] theorem State.setVFlag_pc (s : State) (x : Reg) (r f : Byte) : (s.setVFlag x r f).pc = s.pc := rfl
@[simp] theorem State.setVFlag_stack (s : State) (x : Reg) (r f : Byte) : (s.setVFlag x r f).stack = s.stack := rfl
@[simp] theorem State.setVFlag_sp (s : State) (x : Reg) (r f : Byte) : (s.setVFlag x r f).sp = s.sp := rfl
@[simp] theorem State.setVFlag_dt (s : State) (x : Reg) (r f : Byte) : (s.setVFlag x r f).dt = s.dt := rfl
@[simp] theorem State.setVFlag_st (s : State) (x : Reg) (r f : Byte) : (s.setVFlag x r f).st = s.st := rfl
@[simp] theorem State.setVFlag_mem (s : State) (x : Reg) (r f : Byte) : (s.setVFlag x r f).mem = s.mem := rfl
@[simp] theorem State.setVFlag_fb (s : State) (x : Reg) (r f : Byte) : (s.setVFlag x r f).fb = s.fb := rfl
@[simp] theorem State.setVFlag_redraw (s : State) (x : Reg) (r f : Byte) : (s.setVFlag x r f).redraw = s.redraw := rfl
@[simp] theorem State.setVFlag_keys (s : State) (x : Reg) (r f : Byte) : (s.setVFlag x r f).keys = s.keys := rfl
@[simp] theorem State.setVFlag_wait (s : State) (x : Reg) (r f : Byte) : (s.setVFlag x r f).wait = s.wait := rfl
@[simp] theorem State.setVFlag_fault (s : State) (x : Reg) (r f : Byte) : (s.setVFlag x r f).fault = s.fault := rfl
@[simp] theorem State.setVFlag_draws (s : State) (x : Reg) (r f : Byte) : (s.setVFlag x r f).draws = s.draws := rfl
@[simp] theorem State.setVFlag_getKey (s : State) (x : Reg) (r f : Byte) (z : Key) : (s.setVFlag x r f).getKey z = s.getKey z := rfl

/-! ### loadRegs -/

@[simp] theorem State.loadRegs_i (s : State) (x : Reg) (b : Nat) : (s.loadRegs x b).i = s.i := rfl
@[simp] theorem State.loadRegs_pc (s : State) (x : Reg) (b : Nat) : (s.loadRegs x b).pc = s.pc := rfl
@[simp] theorem State.loadRegs_stack (s : State) (x : Reg) (b : Nat) : (s.loadRegs x b).stack = s.stack := rfl
@[simp] theorem State.loadRegs_sp (s : State) (x : Reg) (b : Nat) : (s.loadRegs x b).sp = s.sp := rfl
@[simp] theorem State.loadRegs_dt (s : State) (x : Reg) (b : Nat) : (s.loadRegs x b).dt = s.dt := rfl
@[simp] theorem State.loadRegs_st (s : State) (x : Reg) (b : Nat) : (s.loadRegs x b).st = s.st := rfl
@[simp] theorem State.loadRegs_mem (s : State) (x : Reg) (b : Nat) : (s.loadRegs x b).mem = s.mem := rfl
@[simp] theorem State.loadRegs_fb (s : State) (x : Reg) (b : Nat) : (s.loadRegs x b).fb = s.fb := rfl
@[simp] theorem State.loadRegs_redraw (s : State) (x : Reg) (b : Nat) : (s.loadRegs x b).redraw = s.redraw := rfl
@[simp] theorem State.loadRegs_keys (s : State) (x : Reg) (b : Nat) : (s.loadRegs x b).keys = s.keys := rfl
@[simp] theorem State.loadRegs_wait (s : State) (x : Reg) (b : Nat) : (s.loadRegs x b).wait = s.wait := rfl
@[simp] theorem State.loadRegs_fault (s : State) (x : Reg) (b : Nat) : (s.loadRegs x b).fault = s.fault := rfl
@[simp] theorem State.loadRegs_draws (s : State) (x : Reg) (b : Nat) : (s.loadRegs x b).draws = s.draws := rfl
@[simp] theorem State.loadRegs_getKey (s : State) (x : Reg) (b : Nat) (z : Key) : (s.loadRegs x b).getKey z = s.getKey z := rfl

/-! ### setI -/

@[simp] theorem State.setI_v (s : State) (a : Word) : (s.setI a).v = s.v := rfl
@[simp] theorem State.setI_i (s : State) (a : Word) : (s.setI a).i = a := rfl
@[simp] theorem State.setI_pc (s : State) (a : Word) : (s.setI a).pc = s.pc := rfl
@[simp] theorem State.setI_stack (s : State) (a : Word) : (s.setI a).stack = s.stack := rfl
@[simp] theorem State.setI_sp (s : State) (a : Word) : (s.setI a).sp = s.sp := rfl
@[simp] theorem State.setI_dt (s : State) (a : Word) : (s.setI a).dt = s.dt := rfl
@[simp] theorem State.setI_st (s : State) (a : Word) : (s.setI a).st = s.st := rfl
@[simp] theorem State.setI_mem (s : State) (a : Word) : (s.setI a).mem = s.mem := rfl
@[simp] theorem State.setI_fb (s : State) (a : Word) : (s.setI a).fb = s.fb := rfl
@[simp] theorem State.setI_redraw (s : State) (a : Word) : (s.setI a).redraw = s.redraw := rfl
@[simp] theorem State.setI_keys (s : State) (a : Word) : (s.setI a).keys = s.keys := rfl
@[simp] theorem State.setI_wait (s : State) (a : Word) : (s.setI a).wait = s.wait := rfl
@[simp] theorem State.setI_fault (s : State) (a : Word) : (s.setI a).fault = s.fault := rfl
@[simp] theorem State.setI_draws (s : State) (a : Word) : (s.setI a).draws = s.draws := rfl
@[simp] theorem State.setI_getV (s : State) (a : Word) (z : Reg) : (s.setI a).getV z = s.getV z := rfl
@[simp] theorem State.setI_getKey (s : State) (a : Word) (z : Key) : (s.setI a).getKey z = s.getKey z := rfl

/-! ### setPc -/

@[simp] theorem State.setPc_v (s : State) (a : Word) : (s.setPc a).v = s.v := rfl
@[simp] theorem State.setPc_i (s : State) (a : Word) : (s.setPc a).i = s.i := rfl
@[simp] theorem State.setPc_pc (s : State) (a : Word) : (s.setPc a).pc = a := rfl
@[simp] theorem State.setPc_stack (s : State) (a : Word) : (s.setPc a).stack = s.stack := rfl
@[simp] theorem State.setPc_sp (s : State) (a : Word) : (s.setPc a).sp = s.sp := rfl
@[simp] theorem State.setPc_dt (s : State) (a : Word) : (s.setPc a).dt = s.dt := rfl
@[simp] theorem State.setPc_st (s : State) (a : Word) : (s.setPc a).st = s.st := rfl
@[simp] theorem State.setPc_mem (s : State) (a : Word) : (s.setPc a).mem = s.mem := rfl
@[simp] theorem State.setPc_fb (s : State) (a : Word) : (s.setPc a).fb = s.fb := rfl
@[simp] theorem State.setPc_redraw (s : State) (a : Word) : (s.setPc a).redraw = s.redraw := rfl
@[simp] theorem State.setPc_keys (s : State) (a : Word) : (s.setPc a).keys = s.keys := rfl
@[simp] theorem State.setPc_wait (s : State) (a : Word) : (s.setPc a).wait = s.wait := rfl
@[simp] theorem State.setPc_fault (s : State) (a : Word) : (s.setPc a).fault = s.fault := rfl
@[simp] theorem State.setPc_draws (s : State) (a : Word) : (s.setPc a).draws = s.draws := rfl
@[simp] theorem State.setPc_getV (s : State) (a : Word) (z : Reg) : (s.setPc a).getV z = s.getV z := rfl
@[simp] theorem State.setPc_getKey (s : State) (a : Word) (z : Key) : (s.setPc a).getKey z = s.getKey z := rfl

/-! ### advance -/

@[simp] theorem State.advance_v (s : State) (k : Word) : (s.advance k).v = s.v := rfl
@[simp] theorem State.advance_i (s : State) (k : Word) : (s.advance k).i = s.i := rfl
@[simp] theorem State.advance_pc (s : State) (k : Word) : (s.advance k).pc = s.pc + k := rfl
@[simp] theorem State.advance_stack (s : State) (k : Word) : (s.advance k).stack = s.stack := rfl
@[simp] theorem State.advance_sp (s : State) (k : Word) : (s.advance k).sp = s.sp := rfl
@[simp] theorem State.advance_dt (s : State) (k : Word) : (s.advance k).dt = s.dt := rfl
@[simp] theorem State.advance_st (s : State) (k : Word) : (s.advance k).st = s.st := rfl
@[simp] theorem State.advance_mem (s : State) (k : Word) : (s.advance k).mem = s.mem := rfl
@[simp] theorem State.advance_fb (s : State) (k : Word) : (s.advance k).fb = s.fb := rfl
@[simp] theorem State.advance_redraw (s : State) (k : Word) : (s.advance k).redraw = s.redraw := rfl
@[simp] theorem State.advance_keys (s : State) (k : Word) : (s.advance k).keys = s.keys := rfl
@[simp] theorem State.advance_wait (s : State) (k : Word) : (s.advance k).wait = s.wait := rfl
@[simp] theorem State.advance_fault (s : State) (k : Word) : (s.advance k).fault = s.fault := rfl
@[simp] theorem State.advance_draws (s : State) (k : Word) : (s.advance k).draws = s.draws := rfl
@[simp] theorem State.advance_getV (s : State) (k : Word) (z : Reg) : (s.advance k).getV z = s.getV z := rfl
@[simp] theorem State.advance_getKey (s : State) (k : Word) (z : Key) : (s.advance k).getKey z = s.getKey z := rfl

/-! ### skipIf -/

@[simp] theorem State.skipIf_v (s : State) (c : Bool) : (s.skipIf c).v = s.v := rfl
@[simp] theorem State.skipIf_i (s : State) (c : Bool) : (s.skipIf c).i = s.i := rfl
@[simp] theorem State.skipIf_pc (s : State) (c : Bool) : (s.skipIf c).pc = s.pc + (if c then 4 else 2) := rfl
@[simp] theorem State.skipIf_stack (s : State) (c : Bool) : (s.skipIf c).stack = s.stack := rfl
@[simp] theorem State.skipIf_sp (s : State) (c : Bool) : (s.skipIf c).sp = s.sp := rfl
@[simp] theorem State.skipIf_dt (s : State) (c : Bool) : (s.skipIf c).dt = s.dt := rfl
@[simp] theorem State.skipIf_st (s : State) (c : Bool) : (s.skipIf c).st = s.st := rfl
@[simp] theorem State.skipIf_mem (s : State) (c : Bool) : (s.skipIf c).mem = s.mem := rfl
@[simp] theorem State.skipIf_fb (s : State) (c : Bool) : (s.skipIf c).fb = s.fb := rfl
@[simp] theorem State.skipIf_redraw (s : State) (c : Bool) : (s.skipIf c).redraw = s.redraw := rfl
@[simp] theorem State.skipIf_keys (s : State) (c : Bool) : (s.skipIf c).keys = s.keys := rfl
@[simp] theorem State.skipIf_wait (s : State) (c : Bool) : (s.skipIf c).wait = s.wait := rfl
@[simp] theorem State.skipIf_fault (s : State) (c : Bool) : (s.skipIf c).fault = s.fault := rfl
@[simp] theorem State.skipIf_draws (s : State) (c : Bool) : (s.skipIf c).draws = s.draws := rfl
@[simp] theorem State.skipIf_getV (s : State) (c : Bool) (z : Reg) : (s.skipIf c).getV z = s.getV z := rfl
@[simp] theorem State.skipIf_getKey (s : State) (c : Bool) (z : Key) : (s.skipIf c).getKey z = s.getKey z := rfl

/-! ### setDt -/

@[simp] theorem State.setDt_v (s : State) (b : Byte) : (s.setDt b).v = s.v := rfl
@[simp] theorem State.setDt_i (s : State) (b : Byte) : (s.setDt b).i = s.i := rfl
@[simp] theorem State.setDt_pc (s : State) (b : Byte) : (s.setDt b).pc = s.pc := rfl
@[simp] theorem State.setDt_stack (s : State) (b : Byte) : (s.setDt b).stack = s.stack := rfl
@[simp] theorem State.setDt_sp (s : State) (b : Byte) : (s.setDt b).sp = s.sp := rfl
@[simp] theorem State.setDt_dt (s : State) (b : Byte) : (s.setDt b).dt = b := rfl
@[simp] theorem State.setDt_st (s : State) (b : Byte) : (s.setDt b).st = s.st := rfl
@[simp] theorem State.setDt_mem (s : State) (b : Byte) : (s.setDt b).mem = s.mem := rfl
@[simp] theorem State.setDt_fb (s : State) (b : Byte) : (s.setDt b).fb = s.fb := rfl
@[simp] theorem State.setDt_redraw (s : State) (b : Byte) : (s.setDt b).redraw = s.redraw := rfl
@[simp] theorem State.setDt_keys (s : State) (b : Byte) : (s.setDt b).keys = s.keys := rfl
@[simp] theorem State.setDt_wait (s : State) (b : Byte) : (s.setDt b).wait = s.wait := rfl
@[simp] theorem State.setDt_fault (s : State) (b : Byte) : (s.setDt b).fault = s.fault := rfl
@[simp] theorem State.setDt_draws (s : State) (b : Byte) : (s.setDt b).draws = s.draws := rfl
@[simp] theorem State.setDt_getV (s : State) (b : Byte) (z : Reg) : (s.setDt b).getV z = s.getV z := rfl
@[simp] theorem State.setDt_getKey (s : State) (b : Byte) (z : Key) : (s.setDt b).getKey z = s.getKey z := rfl

/-! ### setSt -/

@[simp] theorem State.setSt_v (s : State) (b : Byte) : (s.setSt b).v = s.v := rfl
@[simp] theorem State.setSt_i (s : State) (b : Byte) : (s.setSt b).i = s.i := rfl
@[simp] theorem State.setSt_pc (s : State) (b : Byte) : (s.setSt b).pc = s.pc := rfl
@[simp] theorem State.setSt_stack (s : State) (b : Byte) : (s.setSt b).stack = s.stack := rfl
@[simp] theorem State.setSt_sp (s : State) (b : Byte) : (s.setSt b).sp = s.sp := rfl
@[simp] theorem State.setSt_dt (s : State) (b : Byte) : (s.setSt b).dt = s.dt := rfl
@[simp] theorem State.setSt_st (s : State) (b : Byte) : (s.setSt b).st = b := rfl
@[simp] theorem State.setSt_mem (s : State) (b : Byte) : (s.setSt b).mem = s.mem := rfl
@[simp] theorem State.setSt_fb (s : State) (b : Byte) : (s.setSt b).fb = s.fb := rfl
@[simp] theorem State.setSt_redraw (s : State) (b : Byte) : (s.setSt b).redraw = s.redraw := rfl
@[simp] theorem State.setSt_keys (s : State) (b : Byte) : (s.setSt b).keys = s.keys := rfl
@[simp] theorem State.setSt_wait (s : State) (b : Byte) : (s.setSt b).wait = s.wait := rfl
@[simp] theorem State.setSt_fault (s : State) (b : Byte) : (s.setSt b).fault = s.fault := rfl
@[simp] theorem State.setSt_draws (s : State) (b : Byte) : (s.setSt b).draws = s.draws := rfl
@[simp] theorem State.setSt_getV (s : State) (b : Byte) (z : Reg) : (s.setSt b).getV z = s.getV z := rfl
@[simp] theorem State.setSt_getKey (s : State) (b : Byte) (z : Key) : (s.setSt b).getKey z = s.getKey z := rfl

/-! ### setMem -/

@[simp] theorem State.setMem_v (s : State) (m : Memory) : (s.setMem m).v = s.v := rfl
@[simp] theorem State.setMem_i (s : State) (m : Memory) : (s.setMem m).i = s.i := rfl
@[simp] theorem State.setMem_pc (s : State) (m : Memory) : (s.setMem m).pc = s.pc := rfl
@[simp] theorem State.setMem_stack (s : State) (m : Memory) : (s.setMem m).stack = s.stack := rfl
@[simp] theorem State.setMem_sp (s : State) (m : Memory) : (s.setMem m).sp = s.sp := rfl
@[simp] theorem State.setMem_dt (s : State) (m : Memory) : (s.setMem m).dt = s.dt := rfl
@[simp] theorem State.setMem_st (s : State) (m : Memory) : (s.setMem m).st = s.st := rfl
@[simp] theorem State.setMem_mem (s : State) (m : Memory) : (s.setMem m).mem = m := rfl
@[simp] theorem State.setMem_fb (s : State) (m : Memory) : (s.setMem m).fb = s.fb := rfl
@[simp] theorem State.setMem_redraw (s : State) (m : Memory) : (s.setMem m).redraw = s.redraw := rfl
@[simp] theorem State.setMem_keys (s : State) (m : Memory) : (s.setMem m).keys = s.keys := rfl
@[simp] theorem State.setMem_wait (s : State) (m : Memory) : (s.setMem m).wait = s.wait := rfl
@[simp] theorem State.setMem_fault (s : State) (m : Memory) : (s.setMem m).fault = s.fault := rfl
@[simp] theorem State.setMem_draws (s : State) (m : Memory) : (s.setMem m).draws = s.draws := rfl
@[simp] theorem State.setMem_getV (s : State) (m : Memory) (z : Reg) : (s.setMem m).getV z = s.getV z := rfl
@[simp] theorem State.setMem_getKey (s : State) (m : Memory) (z : Key) : (s.setMem m).getKey z = s.getKey z := rfl

/-! ### setRedraw -/

@[simp] theorem State.setRedraw_v (s : State) (b : Bool) : (s.setRedraw b).v = s.v := rfl
@[simp] theorem State.setRedraw_i (s : State) (b : Bool) : (s.setRedraw b).i = s.i := rfl
@[simp] theorem State.setRedraw_pc (s : State) (b : Bool) : (s.setRedraw b).pc = s.pc := rfl
@[simp] theorem State.setRedraw_stack (s : State) (b : Bool) : (s.setRedraw b).stack = s.stack := rfl
@[simp] theorem State.setRedraw_sp (s : State) (b : Bool) : (s.setRedraw b).sp = s.sp := rfl
@[simp] theorem State.setRedraw_dt (s : State) (b : Bool) : (s.setRedraw b).dt = s.dt := rfl
@[simp] theorem State.setRedraw_st (s : State) (b : Bool) : (s.setRedraw b).st = s.st := rfl
@[simp] theorem State.setRedraw_mem (s : State) (b : Bool) : (s.setRedraw b).mem = s.mem := rfl
@[simp] theorem State.setRedraw_fb (s : State) (b : Bool) : (s.setRedraw b).fb = s.fb := rfl
@[simp] theorem State.setRedraw_redraw (s : State) (b : Bool) : (s.setRedraw b).redraw = b := rfl
@[simp] theorem State.setRedraw_keys (s : State) (b : Bool) : (s.setRedraw b).keys = s.keys := rfl
@[simp] theorem State.setRedraw_wait (s : State) (b : Bool) : (s.setRedraw b).wait = s.wait := rfl
@[simp] theorem State.setRedraw_fault (s : State) (b : Bool) : (s.setRedraw b).fault = s.fault := rfl
@[simp] theorem State.setRedraw_draws (s : State) (b : Bool) : (s.setRedraw b).draws = s.draws := rfl
@[simp] theorem State.setRedraw_getV (s : State) (b : Bool) (z : Reg) : (s.setRedraw b).getV z = s.getV z := rfl
@[simp] theorem State.setRedraw_getKey (s : State) (b : Bool) (z : Key) : (s.setRedraw b).getKey z = s.getKey z := rfl

/-! ### setFb -/

@[simp] theorem State.setFb_v (s : State) (f : Framebuffer) : (s.setFb f).v = s.v := rfl
@[simp] theorem State.setFb_i (s : State) (f : Framebuffer) : (s.setFb f).i = s.i := rfl
@[simp] theorem State.setFb_pc (s : State) (f : Framebuffer) : (s.setFb f).pc = s.pc := rfl
@[simp] theorem State.setFb_stack (s : State) (f : Framebuffer) : (s.setFb f).stack = s.stack := rfl
@[simp] theorem State.setFb_sp (s : State) (f : Framebuffer) : (s.setFb f).sp = s.sp := rfl
@[simp] theorem State.setFb_dt (s : State) (f : Framebuffer) : (s.setFb f).dt = s.dt := rfl
@[simp] theorem State.setFb_st (s : State) (f : Framebuffer) : (s.setFb f).st = s.st := rfl
@[simp] theorem State.setFb_mem (s : State) (f : Framebuffer) : (s.setFb f).mem = s.mem := rfl
@[simp] theorem State.setFb_fb (s : State) (f : Framebuffer) : (s.setFb f).fb = f := rfl
@[simp] theorem State.setFb_redraw (s : State) (f : Framebuffer) : (s.setFb f).redraw = s.redraw := rfl
@[simp] theorem State.setFb_keys (s : State) (f : Framebuffer) : (s.setFb f).keys = s.keys := rfl
@[simp] theorem State.setFb_wait (s : State) (f : Framebuffer) : (s.setFb f).wait = s.wait := rfl
@[simp] theorem State.setFb_fault (s : State) (f : Framebuffer) : (s.setFb f).fault = s.fault := rfl
@[simp] theorem State.setFb_draws (s : State) (f : Framebuffer) : (s.setFb f).draws = s.draws := rfl
@[simp] theorem State.setFb_getV (s : State) (f : Framebuffer) (z : Reg) : (s.setFb f).getV z = s.getV z := rfl
@[simp] theorem State.setFb_getKey (s : State) (f : Framebuffer) (z : Key) : (s.setFb f).getKey z = s.getKey z := rfl

/-! ### setWait -/

@[simp] theorem State.setWait_v (s : State) (w : Option Reg) : (s.setWait w).v = s.v := rfl
@[simp] theorem State.setWait_i (s : State) (w : Option Reg) : (s.setWait w).i = s.i := rfl
@[simp] theorem State.setWait_pc (s : State) (w : Option Reg) : (s.setWait w).pc = s.pc := rfl
@[simp] theorem State.setWait_stack (s : State) (w : Option Reg) : (s.setWait w).stack = s.stack := rfl
@[simp] theorem State.setWait_sp (s : State) (w : Option Reg) : (s.setWait w).sp = s.sp := rfl
@[simp] theorem State.setWait_dt (s : State) (w : Option Reg) : (s.setWait w).dt = s.dt := rfl
@[simp] theorem State.setWait_st (s : State) (w : Option Reg) : (s.setWait w).st = s.st := rfl
@[simp] theorem State.setWait_mem (s : State) (w : Option Reg) : (s.setWait w).mem = s.mem := rfl
@[simp] theorem State.setWait_fb (s : State) (w : Option Reg) : (s.setWait w).fb = s.fb := rfl
@[simp] theorem State.setWait_redraw (s : State) (w : Option Reg) : (s.setWait w).redraw = s.redraw := rfl
@[simp] theorem State.setWait_keys (s : State) (w : Option Reg) : (s.setWait w).keys = s.keys := rfl
@[simp] theorem State.setWait_wait (s : State) (w : Option Reg) : (s.setWait w).wait = w := rfl
@[simp] theorem State.setWait_fault (s : State) (w : Option Reg) : (s.setWait w).fault = s.fault := rfl
@[simp] theorem State.setWait_draws (s : State) (w : Option Reg) : (s.setWait w).draws = s.draws := rfl
@[simp] theorem State.setWait_getV (s : State) (w : Option Reg) (z : Reg) : (s.setWait w).getV z = s.getV z := rfl
@[simp] theorem State.setWait_getKey (s : State) (w : Option Reg) (z : Key) : (s.setWait w).getKey z = s.getKey z := rfl

/-! ### setKey -/

@[simp] theorem State.setKey_v (s : State) (k : Key) (b : Bool) : (s.setKey k b).v = s.v := rfl
@[simp] theorem State.setKey_i (s : State) (k : Key) (b : Bool) : (s.setKey k b).i = s.i := rfl
@[simp] theorem State.setKey_pc (s : State) (k : Key) (b : Bool) : (s.setKey k b).pc = s.pc := rfl
@[simp] theorem State.setKey_stack (s : State) (k : Key) (b : Bool) : (s.setKey k b).stack = s.stack := rfl
@[simp] theorem State.setKey_sp (s : State) (k : Key) (b : Bool) : (s.setKey k b).sp = s.sp := rfl
@[simp] theorem State.setKey_dt (s : State) (k : Key) (b : Bool) : (s.setKey k b).dt = s.dt := rfl
@[simp] theorem State.setKey_st (s : State) (k : Key) (b : Bool) : (s.setKey k b).st = s.st := rfl
@[simp] theorem State.setKey_mem (s : State) (k : Key) (b : Bool) : (s.setKey k b).mem = s.mem := rfl
@[simp] theorem State.setKey_fb (s : State) (k : Key) (b : Bool) : (s.setKey k b).fb = s.fb := rfl
@[simp] theorem State.setKey_redraw (s : State) (k : Key) (b : Bool) : (s.setKey k b).redraw = s.redraw := rfl
@[simp] theorem State.setKey_keys (s : State) (k : Key) (b : Bool) : (s.setKey k b).keys = s.keys.set k.toNat b k.isLt := rfl
@[simp] theorem State.setKey_wait (s : State) (k : Key) (b : Bool) : (s.setKey k b).wait = s.wait := rfl
@[simp] theorem State.setKey_fault (s : State) (k : Key) (b : Bool) : (s.setKey k b).fault = s.fault := rfl
@[simp] theorem State.setKey_draws (s : State) (k : Key) (b : Bool) : (s.setKey k b).draws = s.draws := rfl
@[simp] theorem State.setKey_getV (s : State) (k : Key) (b : Bool) (z : Reg) : (s.setKey k b).getV z = s.getV z := rfl

/-! ### drawByte -/

@[simp] theorem State.drawByte_v (s : State) : s.drawByte.2.v = s.v := rfl
@[simp] theorem State.drawByte_i (s : State) : s.drawByte.2.i = s.i := rfl
@[simp] theorem State.drawByte_pc (s : State) : s.drawByte.2.pc = s.pc := rfl
@[simp] theorem State.drawByte_stack (s : State) : s.drawByte.2.stack = s.stack := rfl
@[simp] theorem State.drawByte_sp (s : State) : s.drawByte.2.sp = s.sp := rfl
@[simp] theorem State.drawByte_dt (s : State) : s.drawByte.2.dt = s.dt := rfl
@[simp] theorem State.drawByte_st (s : State) : s.drawByte.2.st = s.st := rfl
@[simp] theorem State.drawByte_mem (s : State) : s.drawByte.2.mem = s.mem := rfl
@[simp] theorem State.drawByte_fb (s : State) : s.drawByte.2.fb = s.fb := rfl
@[simp] theorem State.drawByte_redraw (s : State) : s.drawByte.2.redraw = s.redraw := rfl
@[simp] theorem State.drawByte_keys (s : State) : s.drawByte.2.keys = s.keys := rfl
@[simp] theorem State.drawByte_wait (s : State) : s.drawByte.2.wait = s.wait := rfl
@[simp] theorem State.drawByte_fault (s : State) : s.drawByte.2.fault = s.fault := rfl
@[simp] theorem State.drawByte_draws (s : State) : s.drawByte.2.draws = s.draws + 1 := rfl
@[simp] theorem State.drawByte_getV (s : State) (z : Reg) : s.drawByte.2.getV z = s.getV z := rfl
@[simp] theorem State.drawByte_byte (s : State) : s.drawByte.1 = Config.drawByte s.draws := rfl

end Sys2Proof.Machine
end

