-- ==== Sys2Proof/Laws/Ops.lean ====
section
/-! SUPPORT. What each shared operation over registers, keys, stack, framebuffer, fetch and faults can do, said once. -/

namespace Sys2Proof.Machine

/-! ### Registers and keys -/

theorem State.getV_setV (s : State) (x y : Reg) (r : Byte) : (s.setV x r).getV y = if y = x then r else s.getV y := by
  simp only [State.getV, State.setV, Vector.getElem_set, BitVec.toNat_eq, eq_comm]

@[simp] theorem State.getV_setV_self (s : State) (x : Reg) (r : Byte) : (s.setV x r).getV x = r := by
  simp [State.getV_setV]

theorem State.getV_setV_ne (s : State) (x y : Reg) (r : Byte) (h : y ≠ x) : (s.setV x r).getV y = s.getV y := by
  simp [State.getV_setV, h]

/-- The flag is written last (C1). -/
theorem State.getV_setVFlag (s : State) (x y : Reg) (r f : Byte) :
    (s.setVFlag x r f).getV y = if y = vf then f else if y = x then r else s.getV y := by
  simp only [State.setVFlag, State.getV_setV]

theorem State.getV_loadRegs (s : State) (x y : Reg) (base : Nat) :
    (s.loadRegs x base).getV y = if y.toNat ≤ x.toNat then s.mem.read (base + y.toNat) else s.getV y := by
  simp [State.getV, State.loadRegs]

theorem State.getKey_setKey (s : State) (k j : Key) (b : Bool) :
    (s.setKey k b).getKey j = if j = k then b else s.getKey j := by
  simp only [State.getKey, State.setKey, Vector.getElem_set, BitVec.toNat_eq, eq_comm]

theorem State.regsUpTo_length (s : State) (x : Reg) : (s.regsUpTo x).length = x.toNat + 1 := by
  have := x.isLt
  simp [State.regsUpTo]
  omega

theorem State.regsUpTo_getElem (s : State) (x : Reg) (k : Nat) (hk : k < (s.regsUpTo x).length) (h16 : k < 16) :
    (s.regsUpTo x)[k] = s.v[k] := by
  simp [State.regsUpTo]

/-- The key of a register's value, or none above 0xF (R98). -/
theorem keyOperand_eq (v : Byte) : keyOperand v = if v.toNat ≤ 0xF then some (v.setWidth 4) else none := by
  unfold keyOperand
  split <;> split <;> first | rfl | omega

/-! ### Operands -/

@[simp] theorem addrOperand_toNat (nnn : Addr) : (addrOperand nnn).toNat = nnn.toNat := by
  have := nnn.isLt
  simp only [addrOperand, BitVec.toNat_setWidth]
  omega

/-- The target of jump-with-offset is the exact sum (R74). -/
theorem offsetTarget_toNat (nnn : Addr) (s : State) : (offsetTarget nnn s).toNat = nnn.toNat + (s.getV 0).toNat := by
  have := nnn.isLt
  have := (s.getV 0).isLt
  simp only [offsetTarget, BitVec.toNat_ofNat]
  omega

/-- The glyph's address is 5 times the low nibble (R106). -/
theorem glyphAddress_toNat (v : Byte) : (glyphAddress v).toNat = 5 * (v.toNat % 16) := by
  revert v
  decide

theorem bcdDigits_length (v : Byte) : (bcdDigits v).length = 3 := rfl

/-- Advancing `pc` is exact below the top of the 16-bit range. -/
theorem State.advance_pc_toNat (s : State) (k : Word) (h : s.pc.toNat + k.toNat < 65536) :
    (s.advance k).pc.toNat = s.pc.toNat + k.toNat := by
  simp only [State.advance, State.setPc, BitVec.toNat_add]
  omega

/-! ### The call stack -/

theorem State.push_eq_none (s : State) (a : Word) : s.push a = none ↔ s.sp.val = 16 := by
  have := s.sp.isLt
  unfold State.push
  split <;> simp <;> omega

theorem State.push_eq_some (s : State) (a : Word) (h : s.sp.val < 16) :
    s.push a = some { s with stack := s.stack.set s.sp.val a h, sp := ⟨s.sp.val + 1, Nat.succ_lt_succ h⟩ } := by
  simp [State.push, h]

theorem State.pop_eq_none (s : State) : s.pop = none ↔ s.sp.val = 0 := by
  unfold State.pop
  split <;> simp_all

theorem State.pop_eq_some (s : State) (k : Nat) (hk : k < 16) (h : s.sp = ⟨k + 1, Nat.succ_lt_succ hk⟩) :
    s.pop = some (s.stack[k], { s with sp := ⟨k, Nat.lt_succ_of_lt hk⟩ }) := by
  unfold State.pop
  split <;> simp_all

/-! ### The framebuffer -/

theorem Framebuffer.ext_pix (f g : Framebuffer) (h : ∀ x y, x < 64 → y < 32 → f.pix x y = g.pix x y) : f = g := by
  apply Vector.ext
  intro y hy
  apply BitVec.eq_of_getLsbD_eq
  intro x hx
  simpa [Framebuffer.pix, hy] using h x y hx hy

@[simp] theorem Framebuffer.pix_blank (x y : Nat) : Framebuffer.blank.pix x y = false := by
  simp [Framebuffer.pix, Framebuffer.blank]

/-- Toggling a pixel of the screen flips it and no other. -/
theorem Framebuffer.pix_toggle (f : Framebuffer) (x y px py : Nat) (hx : x < 64) (hy : y < 32) :
    (f.toggle x y).pix px py = (f.pix px py ^^ decide (px = x ∧ py = y)) := by
  by_cases h32 : py < 32
  · by_cases he : y = py
    · subst he
      simp only [Framebuffer.pix, Framebuffer.toggle, hy, dif_pos, Vector.getElem_set_self, BitVec.getLsbD_xor,
        BitVec.getLsbD_twoPow, hx, decide_true, Bool.true_and, and_true]
      congr 1
      simp [eq_comm]
    · have : ¬(px = x ∧ py = y) := fun h => he h.2.symm
      simp [Framebuffer.pix, Framebuffer.toggle, hy, h32, he, this]
  · have : ¬(px = x ∧ py = y) := by omega
    simp [Framebuffer.pix, h32, this]

/-! ### Fetch and faults -/

/-- The one fault entry writes the record and nothing else (R111). -/
theorem raise_eq (kind : FaultKind) (info : Nat) (s : State) :
    raise kind info s = .next { s with fault := some ⟨kind, s.pc, info⟩ } := rfl

theorem State.fetch_eq_none (s : State) : s.fetch = none ↔ s.pc.toNat > 0x0FFE := by
  simp [State.fetch]

theorem State.fetch_eq_some (s : State) (w : Word) : s.fetch = some w ↔ s.pc.toNat ≤ 0x0FFE ∧ s.fetchWord = w := by
  unfold State.fetch
  split <;> simp <;> omega

end Sys2Proof.Machine
end

