-- ==== Sys2Proof/Laws/Draw.lean ====
section
/-! SUPPORT. The rasterizer: drawing composes, and one source bit's effect on a pixel. -/

namespace Sys2Proof.Machine

/-- One source bit: a drawn 1-bit flips its pixel and sets `hit` if the pixel was set; else nothing (R95, R96). -/
theorem drawBit_eq (cx cy : Nat) (byte : Byte) (row col : Nat) (c : Canvas) :
    drawBit cx cy byte row col c =
      if byte.getLsbD (7 - col) = true ∧ cx + col < 64 ∧ cy + row < 32 then
        { fb := c.fb.toggle (cx + col) (cy + row), hit := c.hit || c.fb.pix (cx + col) (cy + row) }
      else c := rfl

/-- What one source bit does to any pixel. -/
theorem drawBit_pix (cx cy : Nat) (byte : Byte) (row col : Nat) (c : Canvas) (px py : Nat) :
    (drawBit cx cy byte row col c).fb.pix px py =
      (c.fb.pix px py ^^
        decide (byte.getLsbD (7 - col) = true ∧ px < 64 ∧ py < 32 ∧ px = cx + col ∧ py = cy + row)) := by
  rw [drawBit_eq]
  split
  · next h =>
    rw [Framebuffer.pix_toggle _ _ _ _ _ h.2.1 h.2.2]
    congr 1
    apply decide_eq_decide.mpr
    constructor
    · rintro ⟨rfl, rfl⟩
      exact ⟨h.1, h.2.1, h.2.2, rfl, rfl⟩
    · rintro ⟨_, _, _, h1, h2⟩
      exact ⟨h1, h2⟩
  · next h =>
    have : ¬(byte.getLsbD (7 - col) = true ∧ px < 64 ∧ py < 32 ∧ px = cx + col ∧ py = cy + row) := by
      rintro ⟨h1, h2, h3, rfl, rfl⟩
      exact h ⟨h1, h2, h3⟩
    simp only [this, decide_false, Bool.xor_false]

/-- When one source bit sets `hit`. -/
theorem drawBit_hit (cx cy : Nat) (byte : Byte) (row col : Nat) (c : Canvas) :
    (drawBit cx cy byte row col c).hit =
      (c.hit || (decide (byte.getLsbD (7 - col) = true ∧ cx + col < 64 ∧ cy + row < 32) &&
        c.fb.pix (cx + col) (cy + row))) := by
  rw [drawBit_eq]
  split
  · next h => simp [h]
  · next h => simp [h]

@[simp] theorem drawRows_nil (cx cy row : Nat) (c : Canvas) : drawRows cx cy row [] c = c := rfl

theorem drawRows_cons (cx cy row : Nat) (b : Byte) (bs : List Byte) (c : Canvas) :
    drawRows cx cy row (b :: bs) c = drawRows cx cy (row + 1) bs (drawRow cx cy b row c) := rfl

/-- Does a source row of byte `b`, its columns below `n` drawn, have a 1-bit on the pixel (px, py) of the screen? -/
def rowCovers (cx cy : Nat) (b : Byte) (row n px py : Nat) : Bool :=
  decide (cx ≤ px ∧ px < cx + n ∧ px < 64 ∧ py < 32 ∧ py = cy + row) && b.getLsbD (7 - (px - cx))

theorem rowCovers_eq_true (cx cy : Nat) (b : Byte) (row n px py : Nat) :
    rowCovers cx cy b row n px py = true ↔
      (cx ≤ px ∧ px < cx + n ∧ px < 64 ∧ py < 32 ∧ py = cy + row) ∧ b.getLsbD (7 - (px - cx)) = true := by
  rw [rowCovers, Bool.and_eq_true, decide_eq_true_eq]

theorem rowCovers_off (cx cy : Nat) (b : Byte) (row n px py : Nat)
    (h : ¬(cx ≤ px ∧ px < cx + n ∧ px < 64 ∧ py < 32 ∧ py = cy + row)) : rowCovers cx cy b row n px py = false := by
  rw [rowCovers, decide_eq_false h, Bool.false_and]

/-- One more column. -/
theorem rowCovers_succ (cx cy : Nat) (b : Byte) (row n px py : Nat) :
    rowCovers cx cy b row (n + 1) px py =
      (rowCovers cx cy b row n px py ^^
        decide (b.getLsbD (7 - n) = true ∧ px < 64 ∧ py < 32 ∧ px = cx + n ∧ py = cy + row)) := by
  by_cases h : px = cx + n
  · subst h
    rw [rowCovers_off cx cy b row n (cx + n) py (by omega), Bool.false_xor, Bool.eq_iff_iff, rowCovers_eq_true, decide_eq_true_eq,
      Nat.add_sub_cancel_left]
    constructor
    · rintro ⟨⟨_, _, h1, h2, h3⟩, h4⟩
      exact ⟨h4, h1, h2, rfl, h3⟩
    · rintro ⟨h4, h1, h2, _, h3⟩
      exact ⟨⟨by omega, by omega, h1, h2, h3⟩, h4⟩
  · rw [decide_eq_false (fun hc => h hc.2.2.2.1), Bool.xor_false, Bool.eq_iff_iff, rowCovers_eq_true, rowCovers_eq_true]
    have : (cx ≤ px ∧ px < cx + (n + 1) ∧ px < 64 ∧ py < 32 ∧ py = cy + row) ↔
        (cx ≤ px ∧ px < cx + n ∧ px < 64 ∧ py < 32 ∧ py = cy + row) := by omega
    rw [this]

/-- What the first `n` columns of a source row do: flip the pixels covered, and set `hit` if one of them was set. -/
theorem drawCols_spec (cx cy : Nat) (b : Byte) (row : Nat) (c : Canvas) (n : Nat) :
    (∀ px py, ((List.range n).foldl (fun c col => drawBit cx cy b row col c) c).fb.pix px py =
      (c.fb.pix px py ^^ rowCovers cx cy b row n px py)) ∧
    (((List.range n).foldl (fun c col => drawBit cx cy b row col c) c).hit = true ↔
      c.hit = true ∨ ∃ px py, c.fb.pix px py = true ∧ rowCovers cx cy b row n px py = true) := by
  induction n with
  | zero =>
    have h : ∀ px py, rowCovers cx cy b row 0 px py = false := fun px py => rowCovers_off _ _ _ _ _ _ _ (by omega)
    simp [h]
  | succ n ih =>
    obtain ⟨ih1, ih2⟩ := ih
    simp only [List.range_succ, List.foldl_append, List.foldl_cons, List.foldl_nil]
    refine ⟨fun px py => by rw [drawBit_pix, ih1, Bool.xor_assoc, ← rowCovers_succ], ?_⟩
    have hlast : rowCovers cx cy b row n (cx + n) (cy + row) = false := rowCovers_off _ _ _ _ _ _ _ (by omega)
    rw [drawBit_hit, Bool.or_eq_true, ih2, Bool.and_eq_true, ih1, hlast, Bool.xor_false, or_assoc, decide_eq_true_eq]
    refine or_congr_right ⟨?_, ?_⟩
    · rintro (⟨px, py, h1, h2⟩ | ⟨h1, h2⟩)
      · rw [rowCovers_eq_true] at h2
        exact ⟨px, py, h1, (rowCovers_eq_true _ _ _ _ _ _ _).mpr ⟨by omega, h2.2⟩⟩
      · exact ⟨_, _, h2, (rowCovers_eq_true _ _ _ _ _ _ _).mpr
          ⟨by omega, by rw [Nat.add_sub_cancel_left]; exact h1.1⟩⟩
    · rintro ⟨px, py, h1, h2⟩
      rw [rowCovers_eq_true] at h2
      by_cases h : px = cx + n
      · obtain ⟨⟨_, _, h3, h4, rfl⟩, h5⟩ := h2
        subst h
        rw [Nat.add_sub_cancel_left] at h5
        exact .inr ⟨⟨h5, h3, h4⟩, h1⟩
      · exact .inl ⟨px, py, h1, (rowCovers_eq_true _ _ _ _ _ _ _).mpr ⟨by omega, h2.2⟩⟩

/-- Do the sprite rows `bs`, the first of them row `row`, have a 1-bit on the pixel (px, py) of the screen? -/
def rowsCover (cx cy : Nat) : Nat → List Byte → Nat → Nat → Bool
  | _, [], _, _ => false
  | row, b :: bs, px, py => rowCovers cx cy b row 8 px py || rowsCover cx cy (row + 1) bs px py

/-- Rows from `row` on cover no pixel above that row. -/
theorem rowsCover_above (cx cy : Nat) (bs : List Byte) (row px py : Nat) (h : py < cy + row) :
    rowsCover cx cy row bs px py = false := by
  induction bs generalizing row with
  | nil => rfl
  | cons b bs ih => rw [rowsCover, rowCovers_off _ _ _ _ _ _ _ (by omega), ih (row + 1) (by omega), Bool.or_false]

/-- A pixel lies in one row of the sprite, so two rows never both cover it. -/
theorem rowsCover_cons (cx cy : Nat) (b : Byte) (bs : List Byte) (row px py : Nat) :
    (rowCovers cx cy b row 8 px py = true → rowsCover cx cy (row + 1) bs px py = false) ∧
    rowsCover cx cy row (b :: bs) px py =
      (rowCovers cx cy b row 8 px py ^^ rowsCover cx cy (row + 1) bs px py) := by
  have h : rowCovers cx cy b row 8 px py = true → rowsCover cx cy (row + 1) bs px py = false := fun h =>
    rowsCover_above _ _ _ _ _ _ (by have := (rowCovers_eq_true _ _ _ _ _ _ _).mp h; omega)
  refine ⟨h, ?_⟩
  rw [rowsCover]
  cases hb : rowCovers cx cy b row 8 px py
  · simp
  · simp [h hb]

/-- The covered pixel of a sprite row, by its index in the list. -/
theorem rowsCover_eq (cx cy : Nat) (bs : List Byte) (row px py : Nat) :
    rowsCover cx cy row bs px py =
      (decide (cx ≤ px ∧ px < cx + 8 ∧ px < 64 ∧ py < 32 ∧ cy + row ≤ py ∧ py < cy + row + bs.length) &&
        (bs.getD (py - (cy + row)) 0).getLsbD (7 - (px - cx))) := by
  induction bs generalizing row with
  | nil =>
    have : ¬(cx ≤ px ∧ px < cx + 8 ∧ px < 64 ∧ py < 32 ∧ cy + row ≤ py ∧ py < cy + row + ([] : List Byte).length) := by
      simp only [List.length_nil]
      omega
    rw [decide_eq_false this, Bool.false_and, rowsCover]
  | cons b bs ih =>
    by_cases h : py = cy + row
    · subst h
      rw [rowsCover, rowsCover_above _ _ _ _ _ _ (by omega), Bool.or_false, rowCovers, Nat.sub_self, List.getD_cons_zero]
      congr 2
      simp
    · rw [rowsCover, rowCovers_off _ _ _ _ _ _ _ (by omega), Bool.false_or, ih]
      by_cases hlt : cy + row < py
      · have e : py - (cy + row) = (py - (cy + (row + 1))) + 1 := by omega
        rw [e, List.getD_cons_succ]
        congr 2
        simp only [List.length_cons, eq_iff_iff]
        omega
      · rw [decide_eq_false (by omega), decide_eq_false (by omega), Bool.false_and, Bool.false_and]

/-- What drawing sprite rows does: flip the pixels covered, and set `hit` if one of them was set before (R95, R96). -/
theorem drawRows_spec (cx cy : Nat) (bs : List Byte) (row : Nat) (c : Canvas) :
    (∀ px py, (drawRows cx cy row bs c).fb.pix px py = (c.fb.pix px py ^^ rowsCover cx cy row bs px py)) ∧
    ((drawRows cx cy row bs c).hit = true ↔
      c.hit = true ∨ ∃ px py, c.fb.pix px py = true ∧ rowsCover cx cy row bs px py = true) := by
  induction bs generalizing row c with
  | nil => simp [rowsCover]
  | cons b bs ih =>
    obtain ⟨ih1, ih2⟩ := ih (row + 1) (drawRow cx cy b row c)
    have hcols := drawCols_spec cx cy b row c 8
    obtain ⟨f1, f2⟩ : (∀ px py, (drawRow cx cy b row c).fb.pix px py =
        (c.fb.pix px py ^^ rowCovers cx cy b row 8 px py)) ∧
        ((drawRow cx cy b row c).hit = true ↔
          c.hit = true ∨ ∃ px py, c.fb.pix px py = true ∧ rowCovers cx cy b row 8 px py = true) := hcols
    rw [drawRows_cons]
    refine ⟨fun px py => by rw [ih1, f1, Bool.xor_assoc, ← (rowsCover_cons cx cy b bs row px py).2], ?_⟩
    rw [ih2, f2, or_assoc]
    refine or_congr_right ⟨?_, ?_⟩
    · rintro (⟨px, py, h1, h2⟩ | ⟨px, py, h1, h2⟩)
      · exact ⟨px, py, h1, by rw [rowsCover, h2, Bool.true_or]⟩
      · rw [f1] at h1
        have hb : rowCovers cx cy b row 8 px py = false := by
          cases hb : rowCovers cx cy b row 8 px py
          · rfl
          · rw [(rowsCover_cons cx cy b bs row px py).1 hb] at h2
            cases h2
        rw [hb, Bool.xor_false] at h1
        exact ⟨px, py, h1, by rw [rowsCover, h2, Bool.or_true]⟩
    · rintro ⟨px, py, h1, h2⟩
      cases hb : rowCovers cx cy b row 8 px py
      · rw [rowsCover, hb, Bool.false_or] at h2
        exact .inr ⟨px, py, by rw [f1, hb, Bool.xor_false]; exact h1, h2⟩
      · exact .inl ⟨px, py, h1, hb⟩

end Sys2Proof.Machine
end

