-- ==== Sys2Proof/Laws/Exec.lean ====
section
/-! SUPPORT. What an instruction and a step can do, said once. -/

namespace Sys2Proof.Machine

/-- Why an instruction faults, with which kind and which info (R70, R72, R94, R98, R105, R107–R109). -/
inductive FaultCause (s : State) : Instr → FaultKind → Nat → Prop
  | ret (h : s.sp.val = 0) : FaultCause s .ret .stackUnderflow 0
  | call (nnn : Addr) (h : s.sp.val = 16) : FaultCause s (.call nnn) .stackOverflow 0
  | drw (x y : Reg) (n : Nibble) (hn : 0 < n.toNat) (h : 0x0FFF < s.i.toNat + n.toNat - 1) :
    FaultCause s (.drw x y n) .memOutOfRange 0x1000
  | skp (x : Reg) (h : 0xF < (s.getV x).toNat) : FaultCause s (.skp x) .keyOutOfRange (s.getV x).toNat
  | sknp (x : Reg) (h : 0xF < (s.getV x).toNat) : FaultCause s (.sknp x) .keyOutOfRange (s.getV x).toNat
  | addIVx (x : Reg) (h : 0x0FFF < s.i.toNat + (s.getV x).toNat) :
    FaultCause s (.addIVx x) .indexOutOfRange (s.i.toNat + (s.getV x).toNat)
  | ldBVx (x : Reg) (h : 0x0FFF < s.i.toNat + 2) : FaultCause s (.ldBVx x) .memOutOfRange 0x1000
  | ldMemVx (x : Reg) (h : 0x0FFF < s.i.toNat + x.toNat) : FaultCause s (.ldMemVx x) .memOutOfRange 0x1000
  | ldVxMem (x : Reg) (h : 0x0FFF < s.i.toNat + x.toNat) : FaultCause s (.ldVxMem x) .memOutOfRange 0x1000

/-- Everything an instruction can do to `s`: the fault entry, for a cause, or its own effect. -/
inductive Effect (s : State) : Instr → State → Prop
  | fault (i : Instr) (kind : FaultKind) (info : Nat) (cause : FaultCause s i kind info) :
    Effect s i { s with fault := some ⟨kind, s.pc, info⟩ }
  | nop : Effect s .nop (s.advance 2)
  | cls : Effect s .cls (((s.setFb Framebuffer.blank).setRedraw true).advance 2)
  | ret (k : Nat) (hk : k < 16) (h : s.sp.val = k + 1) :
    Effect s .ret (State.setPc { s with sp := ⟨k, Nat.lt_succ_of_lt hk⟩ } (s.stack[k] + 2))
  | jp (nnn : Addr) : Effect s (.jp nnn) (s.setPc (addrOperand nnn))
  | call (nnn : Addr) (h : s.sp.val < 16) :
    Effect s (.call nnn)
      (State.setPc { s with stack := s.stack.set s.sp.val s.pc h, sp := ⟨s.sp.val + 1, Nat.succ_lt_succ h⟩ }
        (addrOperand nnn))
  | ldI (nnn : Addr) : Effect s (.ldI nnn) ((s.setI (addrOperand nnn)).advance 2)
  | jpV0 (nnn : Addr) : Effect s (.jpV0 nnn) (s.setPc (offsetTarget nnn s))
  | seImm (x : Reg) (kk : Byte) : Effect s (.seImm x kk) (s.skipIf (s.getV x == kk))
  | sneImm (x : Reg) (kk : Byte) : Effect s (.sneImm x kk) (s.skipIf (s.getV x != kk))
  | ldImm (x : Reg) (kk : Byte) : Effect s (.ldImm x kk) ((s.setV x kk).advance 2)
  | addImm (x : Reg) (kk : Byte) : Effect s (.addImm x kk) ((s.setV x (sum8 (s.getV x) kk)).advance 2)
  | rnd (x : Reg) (kk : Byte) : Effect s (.rnd x kk) ((s.drawByte.2.setV x (s.drawByte.1 &&& kk)).advance 2)
  | seReg (x y : Reg) : Effect s (.seReg x y) (s.skipIf (s.getV x == s.getV y))
  | sneReg (x y : Reg) : Effect s (.sneReg x y) (s.skipIf (s.getV x != s.getV y))
  | ldReg (x y : Reg) : Effect s (.ldReg x y) ((s.setV x (s.getV y)).advance 2)
  | or (x y : Reg) : Effect s (.or x y) ((s.setV x (s.getV x ||| s.getV y)).advance 2)
  | and (x y : Reg) : Effect s (.and x y) ((s.setV x (s.getV x &&& s.getV y)).advance 2)
  | xor (x y : Reg) : Effect s (.xor x y) ((s.setV x (s.getV x ^^^ s.getV y)).advance 2)
  | addReg (x y : Reg) :
    Effect s (.addReg x y)
      ((s.setVFlag x (sum8 (s.getV x) (s.getV y)) (carryFlag (s.getV x) (s.getV y))).advance 2)
  | sub (x y : Reg) :
    Effect s (.sub x y)
      ((s.setVFlag x (diff8 (s.getV x) (s.getV y)) (notBorrowFlag (s.getV x) (s.getV y))).advance 2)
  | shr (x y : Reg) (a : Byte) (ha : a = shiftOperand Config.shiftSource x y s) :
    Effect s (.shr x y) ((s.setVFlag x (shr8 a) (shrFlag a)).advance 2)
  | subn (x y : Reg) :
    Effect s (.subn x y)
      ((s.setVFlag x (diff8 (s.getV y) (s.getV x)) (notBorrowFlag (s.getV y) (s.getV x))).advance 2)
  | shl (x y : Reg) (a : Byte) (ha : a = shiftOperand Config.shiftSource x y s) :
    Effect s (.shl x y) ((s.setVFlag x (shl8 a) (shlFlag a)).advance 2)
  | drw (x y : Reg) (n : Nibble) (c : Canvas) (hc : c = s.drawSprite x y n)
      (h : n.toNat = 0 ∨ s.i.toNat + n.toNat - 1 ≤ 0x0FFF) :
    Effect s (.drw x y n) ((((s.setFb c.fb).setV vf (flagByte c.hit)).setRedraw true).advance 2)
  | skp (x : Reg) (h : (s.getV x).toNat ≤ 0xF) :
    Effect s (.skp x) (s.skipIf (s.getKey ((s.getV x).setWidth 4)))
  | sknp (x : Reg) (h : (s.getV x).toNat ≤ 0xF) :
    Effect s (.sknp x) (s.skipIf (!s.getKey ((s.getV x).setWidth 4)))
  | ldVxDt (x : Reg) : Effect s (.ldVxDt x) ((s.setV x s.dt).advance 2)
  | ldVxK (x : Reg) : Effect s (.ldVxK x) ((s.setWait (some x)).advance 2)
  | ldDtVx (x : Reg) : Effect s (.ldDtVx x) ((s.setDt (s.getV x)).advance 2)
  | ldStVx (x : Reg) : Effect s (.ldStVx x) ((s.setSt (s.getV x)).advance 2)
  | addIVx (x : Reg) (h : s.i.toNat + (s.getV x).toNat ≤ 0x0FFF) :
    Effect s (.addIVx x) ((s.setI (BitVec.ofNat 16 (s.i.toNat + (s.getV x).toNat))).advance 2)
  | ldFVx (x : Reg) : Effect s (.ldFVx x) ((s.setI (glyphAddress (s.getV x))).advance 2)
  | ldBVx (x : Reg) (h : s.i.toNat + 2 ≤ 0x0FFF) :
    Effect s (.ldBVx x) ((s.setMem (s.mem.writeBytes s.i.toNat (bcdDigits (s.getV x)))).advance 2)
  | ldMemVx (x : Reg) (h : s.i.toNat + x.toNat ≤ 0x0FFF) :
    Effect s (.ldMemVx x) ((s.setMem (s.mem.writeBytes s.i.toNat (s.regsUpTo x))).advance 2)
  | ldVxMem (x : Reg) (h : s.i.toNat + x.toNat ≤ 0x0FFF) :
    Effect s (.ldVxMem x) ((s.loadRegs x s.i.toNat).advance 2)

/-- The key operand of a register's value at most 0xF. -/
theorem keyOperand_of_le (v : Byte) (h : v.toNat ≤ 0xF) : keyOperand v = some (v.setWidth 4) := by
  simp [keyOperand_eq, h]

/-- The key operand of a register's value above 0xF. -/
theorem keyOperand_of_gt (v : Byte) (h : 0xF < v.toNat) : keyOperand v = none := by
  simp [keyOperand_eq, Nat.not_le.mpr h]

/-- The bound check of R38 passes. -/
theorem accessFits_of_le (base n : Nat) (h : n = 0 ∨ base + n - 1 ≤ 0x0FFF) : accessFits base n = true :=
  decide_eq_true h

/-- The bound check of R38 fails. -/
theorem accessFits_of_gt (base n : Nat) (hn : 0 < n) (h : 0x0FFF < base + n - 1) : accessFits base n = false :=
  decide_eq_false (by omega)

/-- Every instruction answers a next state, and it is one of its effects. -/
theorem exec_effect (i : Instr) (s : State) : ∃ t, exec i s = .next t ∧ Effect s i t := by
  cases i <;> simp only [exec]
  case ret =>
    by_cases h : s.sp.val = 0
    · exact ⟨_, by simp only [execRet, (s.pop_eq_none).mpr h]; rfl, .fault _ _ _ (.ret h)⟩
    · obtain ⟨k, hk⟩ := Nat.exists_eq_succ_of_ne_zero h
      have hlt : k < 16 := by have := s.sp.isLt; omega
      exact ⟨_, by simp only [execRet, s.pop_eq_some k hlt (Fin.ext hk)], .ret k hlt hk⟩
  case call nnn =>
    by_cases h : s.sp.val = 16
    · exact ⟨_, by simp only [execCall, (s.push_eq_none _).mpr h]; rfl, .fault _ _ _ (.call nnn h)⟩
    · have hlt : s.sp.val < 16 := by have := s.sp.isLt; omega
      exact ⟨_, by simp only [execCall, s.push_eq_some _ hlt], .call nnn hlt⟩
  case drw x y n =>
    by_cases h : n.toNat = 0 ∨ s.i.toNat + n.toNat - 1 ≤ 0x0FFF
    · exact ⟨_, by simp only [execDrw, accessFits_of_le _ _ h, if_true], .drw x y n _ rfl h⟩
    · have hf : 0x0FFF < s.i.toNat + n.toNat - 1 ∧ 0 < n.toNat := by omega
      exact ⟨_, by simp only [execDrw, accessFits_of_gt _ _ hf.2 hf.1, Bool.false_eq_true, if_false]; rfl,
        .fault _ _ _ (.drw x y n hf.2 hf.1)⟩
  case skp x =>
    by_cases h : (s.getV x).toNat ≤ 0xF
    · exact ⟨_, by simp only [execSkp, keyOperand_of_le _ h], .skp x h⟩
    · have h := Nat.lt_of_not_le h
      exact ⟨_, by simp only [execSkp, keyOperand_of_gt _ h]; rfl, .fault _ _ _ (.skp x h)⟩
  case sknp x =>
    by_cases h : (s.getV x).toNat ≤ 0xF
    · exact ⟨_, by simp only [execSknp, keyOperand_of_le _ h], .sknp x h⟩
    · have h := Nat.lt_of_not_le h
      exact ⟨_, by simp only [execSknp, keyOperand_of_gt _ h]; rfl, .fault _ _ _ (.sknp x h)⟩
  case addIVx x =>
    by_cases h : 0x0FFF < s.i.toNat + (s.getV x).toNat
    · exact ⟨_, by simp only [execAddIVx, gt_iff_lt, h, if_true]; rfl, .fault _ _ _ (.addIVx x h)⟩
    · exact ⟨_, by simp only [execAddIVx, gt_iff_lt, h, if_false], .addIVx x (Nat.le_of_not_lt h)⟩
  case ldBVx x =>
    by_cases h : s.i.toNat + 2 ≤ 0x0FFF
    · exact ⟨_, by simp only [execLdBVx, accessFits_of_le s.i.toNat 3 (.inr h), if_true], .ldBVx x h⟩
    · have h := Nat.lt_of_not_le h
      exact ⟨_, by simp only [execLdBVx, accessFits_of_gt s.i.toNat 3 (Nat.succ_pos _) h, Bool.false_eq_true, if_false]; rfl,
        .fault _ _ _ (.ldBVx x h)⟩
  case ldMemVx x =>
    by_cases h : s.i.toNat + x.toNat ≤ 0x0FFF
    · exact ⟨_, by simp only [execLdMemVx, accessFits_of_le s.i.toNat (x.toNat + 1) (.inr h), if_true], .ldMemVx x h⟩
    · have h := Nat.lt_of_not_le h
      exact ⟨_, by simp only [execLdMemVx, accessFits_of_gt s.i.toNat (x.toNat + 1) (Nat.succ_pos _) h, Bool.false_eq_true, if_false]; rfl,
        .fault _ _ _ (.ldMemVx x h)⟩
  case ldVxMem x =>
    by_cases h : s.i.toNat + x.toNat ≤ 0x0FFF
    · exact ⟨_, by simp only [execLdVxMem, accessFits_of_le s.i.toNat (x.toNat + 1) (.inr h), if_true], .ldVxMem x h⟩
    · have h := Nat.lt_of_not_le h
      exact ⟨_, by simp only [execLdVxMem, accessFits_of_gt s.i.toNat (x.toNat + 1) (Nat.succ_pos _) h, Bool.false_eq_true, if_false]; rfl,
        .fault _ _ _ (.ldVxMem x h)⟩
  case shr x y => exact ⟨_, rfl, .shr x y _ rfl⟩
  case shl x y => exact ⟨_, rfl, .shl x y _ rfl⟩
  all_goals exact ⟨_, rfl, by constructor⟩

/-- What an instruction that answered a next state did: cite this and split on the effect, instead of unfolding `exec`. -/
theorem exec_inversion {i : Instr} {s t : State} (h : exec i s = .next t) : Effect s i t := by
  obtain ⟨u, hu, he⟩ := exec_effect i s
  rw [h] at hu
  cases hu
  exact he

/-- An effect other than the fault entry leaves the fault record as it was. -/
theorem Effect.fault_eq {i : Instr} {s t : State} (h : Effect s i t) :
    t.fault = s.fault ∨ ∃ kind info, FaultCause s i kind info ∧ t = { s with fault := some ⟨kind, s.pc, info⟩ } := by
  cases h
  case fault kind info cause => exact .inr ⟨kind, info, cause, rfl⟩
  all_goals exact .inl rfl

/-- Every instruction answers a next state: its effect, which records no fault, or the one fault entry (R63). -/
theorem exec_cases (i : Instr) (s : State) :
    (∃ t, exec i s = .next t ∧ t.fault = s.fault) ∨ ∃ kind info, exec i s = raise kind info s := by
  obtain ⟨t, ht, he⟩ := exec_effect i s
  rcases he.fault_eq with h | ⟨kind, info, _, rfl⟩
  · exact .inl ⟨t, ht, h⟩
  · exact .inr ⟨kind, info, ht⟩

/-- What a step answers (R59, R67): the recorded fault, a no-op in a key-wait, a fetch fault, a decode fault, or the decoded
instruction. -/
theorem step_cases (s : State) :
    (∃ r, s.fault = some r ∧ step s = .fault (.recorded r)) ∨
    (s.fault = none ∧ (∃ r, s.wait = some r) ∧ step s = .next s) ∨
    (s.fault = none ∧ s.wait = none ∧ s.pc.toNat > 0x0FFE ∧ step s = raise .fetchOutOfRange s.pc.toNat s) ∨
    (s.fault = none ∧ s.wait = none ∧ s.pc.toNat ≤ 0x0FFE ∧ (∃ e, decode s.fetchWord = .error e) ∧
      step s = raise .decodeError s.fetchWord.toNat s) ∨
    ∃ i, s.fault = none ∧ s.wait = none ∧ s.pc.toNat ≤ 0x0FFE ∧ decode s.fetchWord = .ok i ∧ step s = exec i s := by
  unfold step stepCommand
  cases hf : s.fault with
  | some r => exact .inl ⟨r, rfl, rfl⟩
  | none =>
    cases hw : s.wait with
    | some r => exact .inr (.inl ⟨rfl, ⟨r, rfl⟩, rfl⟩)
    | none =>
      simp only [fetchDecodeExecute]
      by_cases hp : s.pc.toNat > 0x0FFE
      · simp only [(s.fetch_eq_none).mpr hp]
        exact .inr (.inr (.inl ⟨trivial, trivial, hp, trivial⟩))
      · have hp' : s.pc.toNat ≤ 0x0FFE := by omega
        simp only [(s.fetch_eq_some s.fetchWord).mpr ⟨hp', rfl⟩]
        cases hd : decode s.fetchWord with
        | error e => exact .inr (.inr (.inr (.inl ⟨trivial, trivial, hp', ⟨e, rfl⟩, rfl⟩)))
        | ok i => exact .inr (.inr (.inr (.inr ⟨i, trivial, trivial, hp', rfl, rfl⟩)))

end Sys2Proof.Machine
end

