-- ==== Sys2Proof/Laws/Commands.lean ====
section
/-! SUPPORT. What each host command does to a running core, and that a session's command is one of them. -/

namespace Sys2Proof.Machine

/-- A fetch sees what the memory's bytes read as. -/
theorem fetchSees_of_read (m : Memory) (f : Nat → Byte) (h : ∀ a, m.read a = f a) : FetchSees m f := by
  intro u hu hp
  rw [State.fetch_eq_some, State.fetchWord, hu, h, h]
  exact ⟨hp, rfl⟩

theorem decrement_toNat (t : Byte) : (decrement t).toNat = t.toNat - 1 := by
  have := t.isLt
  unfold decrement
  split
  · next h =>
    rw [BitVec.toNat_sub_of_le (show (1 : Byte).toNat ≤ t.toNat from h)]
    rfl
  · omega

theorem tickTimers_running (s : State) (h : s.fault = none) :
    tickTimers s = { s with dt := decrement s.dt, st := decrement s.st } := by
  simp [tickTimers, h, State.setDt, State.setSt]

theorem keyDown_waiting (k : Key) (s : State) (r : Reg) (h : s.fault = none) (hw : s.wait = some r) :
    keyDown k s = ((s.setKey k true).setV r (k.setWidth 8)).setWait none := by
  simp [keyDown, h, hw]

theorem keyDown_running (k : Key) (s : State) (h : s.fault = none) (hw : s.wait = none) :
    keyDown k s = s.setKey k true := by
  simp [keyDown, h, hw]

theorem keyUp_running (k : Key) (s : State) (h : s.fault = none) : keyUp k s = s.setKey k false := by
  simp [keyUp, h]

theorem clearRedraw_running (s : State) (h : s.fault = none) : clearRedraw s = s.setRedraw false := by
  simp [clearRedraw, h]

/-- What load_rom answers: nothing changed after a fault, ROM_TOO_LARGE, or the bytes copied (R112, R131). -/
theorem loadRom_cases (bytes : List Byte) (s : State) :
    (s.fault.isSome ∧ loadRom bytes s = .next s) ∨
    (s.fault = none ∧ 3584 < bytes.length ∧ loadRom bytes s = .refused (.romTooLarge bytes.length)) ∨
    (s.fault = none ∧ bytes.length ≤ 3584 ∧ loadRom bytes s = .next (s.setMem (s.mem.writeBytes 0x200 bytes))) := by
  cases hf : s.fault with
  | some r => simp [loadRom, hf]
  | none =>
    by_cases hl : bytes.length > 3584
    · exact .inr (.inl ⟨rfl, hl, by simp [loadRom, hf, Config.maxRom, hl]⟩)
    · exact .inr (.inr ⟨rfl, by omega, by simp [loadRom, hf, Config.maxRom, Config.programStart, hl]⟩)

theorem Session.continueWith_eq_next (r : Result) (q : Session) :
    Session.continueWith r = .next q ↔ r = .next q.core ∧ q.fresh = false := by
  obtain ⟨c, f⟩ := q
  cases r <;> simp [Session.continueWith, eq_comm]

/-- A command that answers a next session took its transition on the core (R125). -/
theorem Session.perform_cases (c : Command) (p q : Session) (h : p.perform c = .next q) :
    (∃ bytes, c = .loadRom bytes ∧ loadRom bytes p.core = .next q.core) ∨
    (c = .step ∧ step p.core = .next q.core) ∨
    (c = .tickTimers ∧ q.core = tickTimers p.core) ∨
    (∃ k, c = .keyDown k ∧ q.core = keyDown k p.core) ∨
    (∃ k, c = .keyUp k ∧ q.core = keyUp k p.core) ∨
    (c = .clearRedraw ∧ q.core = clearRedraw p.core) := by
  cases c with
  | loadRom bytes =>
    simp only [Session.perform] at h
    split at h
    · exact .inl ⟨bytes, rfl, ((Session.continueWith_eq_next _ _).mp h).1⟩
    · cases h
  | step => exact .inr (.inl ⟨rfl, ((Session.continueWith_eq_next _ _).mp h).1⟩)
  | tickTimers =>
    cases h
    exact .inr (.inr (.inl ⟨rfl, rfl⟩))
  | keyDown k =>
    cases h
    exact .inr (.inr (.inr (.inl ⟨k, rfl, rfl⟩)))
  | keyUp k =>
    cases h
    exact .inr (.inr (.inr (.inr (.inl ⟨k, rfl, rfl⟩))))
  | clearRedraw =>
    cases h
    exact .inr (.inr (.inr (.inr (.inr ⟨rfl, rfl⟩))))

end Sys2Proof.Machine
end

