-- ==== Sys2Proof/Laws/Decode.lean ====
section
/-! SUPPORT. The fields of a word built in one of the formats of R47, and the masks of R51 on it. -/

namespace Sys2Proof

theorem getLsbD_wordNnn (op : Nibble) (nnn : Addr) (k : Nat) :
    (wordNnn op nnn).getLsbD k = if k < 12 then nnn.getLsbD k else op.getLsbD (k - 12) := by
  rw [wordNnn, BitVec.getLsbD_append]

theorem getLsbD_wordXkk (op : Nibble) (x : Reg) (kk : Byte) (k : Nat) :
    (wordXkk op x kk).getLsbD k =
      if k < 8 then kk.getLsbD k else if k < 12 then x.getLsbD (k - 8) else op.getLsbD (k - 12) := by
  rw [wordXkk, BitVec.getLsbD_append, BitVec.getLsbD_append]
  by_cases h : k < 8
  · simp [h]
  · by_cases h' : k < 12
    · have : k - 8 < 4 := by omega
      simp [h, h', this]
    · have h1 : ¬(k - 8 < 4) := by omega
      have h2 : k - 8 - 4 = k - 12 := by omega
      simp [h, h', h1, h2]

theorem getLsbD_wordXyn (op : Nibble) (x y : Reg) (n : Nibble) (k : Nat) :
    (wordXyn op x y n).getLsbD k =
      if k < 4 then n.getLsbD k else if k < 8 then y.getLsbD (k - 4) else
        if k < 12 then x.getLsbD (k - 8) else op.getLsbD (k - 12) := by
  rw [wordXyn, BitVec.getLsbD_append, BitVec.getLsbD_append, BitVec.getLsbD_append]
  by_cases h : k < 4
  · simp [h]
  · by_cases h' : k < 8
    · have : k - 4 < 4 := by omega
      simp [h, h', this]
    · by_cases h'' : k < 12
      · have h1 : ¬(k - 4 < 4) := by omega
        have h2 : k - 4 - 4 < 4 := by omega
        have h3 : k - 4 - 4 = k - 8 := by omega
        have h4 : k - 8 < 4 := by omega
        simp [h, h', h'', h1, h3, h4]
      · have h1 : ¬(k - 4 < 4) := by omega
        have h3 : k - 4 - 4 = k - 8 := by omega
        have h4 : ¬(k - 8 < 4) := by omega
        have h5 : k - 8 - 4 = k - 12 := by omega
        simp [h, h', h'', h1, h3, h4, h5]

/-! ### The format NNN -/

@[simp] theorem fieldOp_wordNnn (op : Nibble) (nnn : Addr) : fieldOp (wordNnn op nnn) = op := by
  apply BitVec.eq_of_getLsbD_eq
  intro k hk
  simp [fieldOp, getLsbD_wordNnn, hk]

@[simp] theorem fieldNnn_wordNnn (op : Nibble) (nnn : Addr) : fieldNnn (wordNnn op nnn) = nnn := by
  apply BitVec.eq_of_getLsbD_eq
  intro k hk
  simp [fieldNnn, getLsbD_wordNnn, hk]

theorem wordNnn_fields (w : Word) : wordNnn (fieldOp w) (fieldNnn w) = w := by
  apply BitVec.eq_of_getLsbD_eq
  intro k hk
  rw [getLsbD_wordNnn]
  split
  · next h => simp [fieldNnn, h]
  · next h =>
    have h1 : k - 12 < 4 := by omega
    have h2 : 12 + (k - 12) = k := by omega
    simp [fieldOp, h1, h2]

/-! ### The formats XKK and X -/

@[simp] theorem fieldOp_wordXkk (op : Nibble) (x : Reg) (kk : Byte) : fieldOp (wordXkk op x kk) = op := by
  apply BitVec.eq_of_getLsbD_eq
  intro k hk
  have h1 : ¬(12 + k < 8) := by omega
  simp [fieldOp, getLsbD_wordXkk, hk, h1]

@[simp] theorem fieldX_wordXkk (op : Nibble) (x : Reg) (kk : Byte) : fieldX (wordXkk op x kk) = x := by
  apply BitVec.eq_of_getLsbD_eq
  intro k hk
  have h1 : 8 + k < 12 := by omega
  simp [fieldX, getLsbD_wordXkk, hk, h1]

@[simp] theorem fieldKk_wordXkk (op : Nibble) (x : Reg) (kk : Byte) : fieldKk (wordXkk op x kk) = kk := by
  apply BitVec.eq_of_getLsbD_eq
  intro k hk
  simp [fieldKk, getLsbD_wordXkk, hk]

theorem wordXkk_fields (w : Word) : wordXkk (fieldOp w) (fieldX w) (fieldKk w) = w := by
  apply BitVec.eq_of_getLsbD_eq
  intro k hk
  rw [getLsbD_wordXkk]
  split
  · next h => simp [fieldKk, h]
  · split
    · next h h' =>
      have h1 : k - 8 < 4 := by omega
      have h2 : 8 + (k - 8) = k := by omega
      simp [fieldX, h1, h2]
    · next h h' =>
      have h1 : k - 12 < 4 := by omega
      have h2 : 12 + (k - 12) = k := by omega
      simp [fieldOp, h1, h2]

/-! ### The formats XYN and XY -/

@[simp] theorem fieldOp_wordXyn (op : Nibble) (x y : Reg) (n : Nibble) : fieldOp (wordXyn op x y n) = op := by
  apply BitVec.eq_of_getLsbD_eq
  intro k hk
  have h1 : ¬(12 + k < 4) := by omega
  have h2 : ¬(12 + k < 8) := by omega
  simp [fieldOp, getLsbD_wordXyn, hk, h1, h2]

@[simp] theorem fieldX_wordXyn (op : Nibble) (x y : Reg) (n : Nibble) : fieldX (wordXyn op x y n) = x := by
  apply BitVec.eq_of_getLsbD_eq
  intro k hk
  have h1 : 8 + k < 12 := by omega
  have h2 : ¬(8 + k < 4) := by omega
  simp [fieldX, getLsbD_wordXyn, hk, h1, h2]

@[simp] theorem fieldY_wordXyn (op : Nibble) (x y : Reg) (n : Nibble) : fieldY (wordXyn op x y n) = y := by
  apply BitVec.eq_of_getLsbD_eq
  intro k hk
  have h1 : 4 + k < 8 := by omega
  simp [fieldY, getLsbD_wordXyn, hk, h1]

@[simp] theorem fieldN_wordXyn (op : Nibble) (x y : Reg) (n : Nibble) : fieldN (wordXyn op x y n) = n := by
  apply BitVec.eq_of_getLsbD_eq
  intro k hk
  simp [fieldN, getLsbD_wordXyn, hk]

theorem wordXyn_fields (w : Word) : wordXyn (fieldOp w) (fieldX w) (fieldY w) (fieldN w) = w := by
  apply BitVec.eq_of_getLsbD_eq
  intro k hk
  rw [getLsbD_wordXyn]
  split
  · next h => simp [fieldN, h]
  · split
    · next h h' =>
      have h1 : k - 4 < 4 := by omega
      have h2 : 4 + (k - 4) = k := by omega
      simp [fieldY, h1, h2]
    · split
      · next h h' h'' =>
        have h1 : k - 8 < 4 := by omega
        have h2 : 8 + (k - 8) = k := by omega
        simp [fieldX, h1, h2]
      · next h h' h'' =>
        have h1 : k - 12 < 4 := by omega
        have h2 : 12 + (k - 12) = k := by omega
        simp [fieldOp, h1, h2]

/-! ### The masks of R51 -/

theorem wordNnn_mask (op : Nibble) (nnn : Addr) : wordNnn op nnn &&& 0xF000 = wordNnn op 0 := by
  apply BitVec.eq_of_getLsbD_eq
  intro k hk
  rw [BitVec.getLsbD_and, getLsbD_wordNnn, getLsbD_wordNnn]
  interval_cases k <;> simp

theorem wordXkk_mask (op : Nibble) (x : Reg) (kk : Byte) : wordXkk op x kk &&& 0xF000 = wordXkk op 0 0 := by
  apply BitVec.eq_of_getLsbD_eq
  intro k hk
  rw [BitVec.getLsbD_and, getLsbD_wordXkk, getLsbD_wordXkk]
  interval_cases k <;> simp

theorem wordXkk_mask_low (op : Nibble) (x : Reg) (kk : Byte) : wordXkk op x kk &&& 0xF0FF = wordXkk op 0 kk := by
  apply BitVec.eq_of_getLsbD_eq
  intro k hk
  rw [BitVec.getLsbD_and, getLsbD_wordXkk, getLsbD_wordXkk]
  interval_cases k <;> simp

theorem wordXyn_mask (op : Nibble) (x y : Reg) (n : Nibble) : wordXyn op x y n &&& 0xF000 = wordXyn op 0 0 0 := by
  apply BitVec.eq_of_getLsbD_eq
  intro k hk
  rw [BitVec.getLsbD_and, getLsbD_wordXyn, getLsbD_wordXyn]
  interval_cases k <;> simp

theorem wordXyn_mask_low (op : Nibble) (x y : Reg) (n : Nibble) : wordXyn op x y n &&& 0xF00F = wordXyn op 0 0 n := by
  apply BitVec.eq_of_getLsbD_eq
  intro k hk
  rw [BitVec.getLsbD_and, getLsbD_wordXyn, getLsbD_wordXyn]
  interval_cases k <;> simp

end Sys2Proof
end

