-- ==== Sys2Proof/Laws/PerInstr.lean ====
section
/-! SUPPORT. The family EncodeInRow, one lemma per constructor: every instruction is well-formed (R48), and its word matches
its row of the opcode map (R51). -/

namespace Sys2Proof.Laws.EncodeInRow

/-- The instruction is well-formed (R48) and its word matches its row of R51. -/
def Statement (i : Instr) : Prop := i.wellFormed = true ∧ i.row.admits (encode i) = true

/-- A word that equals its pattern under the row's mask. -/
theorem of_mask {i : Instr} (hw : i.wellFormed = true) (h : encode i &&& i.row.mask = i.row.pattern) : Statement i :=
  ⟨hw, by simpa [OpcodeRow.admits] using h⟩

theorem reg_le (x : Reg) : x.toNat ≤ 15 := Nat.le_of_lt_succ x.isLt

theorem byte_le (b : Byte) : b.toNat ≤ 255 := Nat.le_of_lt_succ b.isLt

theorem addr_le (a : Addr) : a.toNat ≤ 0xFFF := Nat.le_of_lt_succ a.isLt

theorem nop : Statement .nop := ⟨rfl, by decide⟩

theorem cls : Statement .cls := ⟨rfl, by decide⟩

theorem ret : Statement .ret := ⟨rfl, by decide⟩

theorem jp (nnn : Addr) : Statement (.jp nnn) :=
  of_mask (decide_eq_true (addr_le nnn)) ((wordNnn_mask _ _).trans rfl)

theorem call (nnn : Addr) : Statement (.call nnn) :=
  of_mask (decide_eq_true (addr_le nnn)) ((wordNnn_mask _ _).trans rfl)

theorem ldI (nnn : Addr) : Statement (.ldI nnn) :=
  of_mask (decide_eq_true (addr_le nnn)) ((wordNnn_mask _ _).trans rfl)

theorem jpV0 (nnn : Addr) : Statement (.jpV0 nnn) :=
  of_mask (decide_eq_true (addr_le nnn)) ((wordNnn_mask _ _).trans rfl)

theorem seImm (x : Reg) (kk : Byte) : Statement (.seImm x kk) :=
  of_mask (decide_eq_true ⟨reg_le x, byte_le kk⟩) ((wordXkk_mask _ _ _).trans rfl)

theorem sneImm (x : Reg) (kk : Byte) : Statement (.sneImm x kk) :=
  of_mask (decide_eq_true ⟨reg_le x, byte_le kk⟩) ((wordXkk_mask _ _ _).trans rfl)

theorem ldImm (x : Reg) (kk : Byte) : Statement (.ldImm x kk) :=
  of_mask (decide_eq_true ⟨reg_le x, byte_le kk⟩) ((wordXkk_mask _ _ _).trans rfl)

theorem addImm (x : Reg) (kk : Byte) : Statement (.addImm x kk) :=
  of_mask (decide_eq_true ⟨reg_le x, byte_le kk⟩) ((wordXkk_mask _ _ _).trans rfl)

theorem rnd (x : Reg) (kk : Byte) : Statement (.rnd x kk) :=
  of_mask (decide_eq_true ⟨reg_le x, byte_le kk⟩) ((wordXkk_mask _ _ _).trans rfl)

theorem seReg (x y : Reg) : Statement (.seReg x y) :=
  of_mask (decide_eq_true ⟨reg_le x, reg_le y⟩) ((wordXyn_mask_low _ _ _ _).trans rfl)

theorem sneReg (x y : Reg) : Statement (.sneReg x y) :=
  of_mask (decide_eq_true ⟨reg_le x, reg_le y⟩) ((wordXyn_mask_low _ _ _ _).trans rfl)

theorem ldReg (x y : Reg) : Statement (.ldReg x y) :=
  of_mask (decide_eq_true ⟨reg_le x, reg_le y⟩) ((wordXyn_mask_low _ _ _ _).trans rfl)

theorem or (x y : Reg) : Statement (.or x y) :=
  of_mask (decide_eq_true ⟨reg_le x, reg_le y⟩) ((wordXyn_mask_low _ _ _ _).trans rfl)

theorem and (x y : Reg) : Statement (.and x y) :=
  of_mask (decide_eq_true ⟨reg_le x, reg_le y⟩) ((wordXyn_mask_low _ _ _ _).trans rfl)

theorem xor (x y : Reg) : Statement (.xor x y) :=
  of_mask (decide_eq_true ⟨reg_le x, reg_le y⟩) ((wordXyn_mask_low _ _ _ _).trans rfl)

theorem addReg (x y : Reg) : Statement (.addReg x y) :=
  of_mask (decide_eq_true ⟨reg_le x, reg_le y⟩) ((wordXyn_mask_low _ _ _ _).trans rfl)

theorem sub (x y : Reg) : Statement (.sub x y) :=
  of_mask (decide_eq_true ⟨reg_le x, reg_le y⟩) ((wordXyn_mask_low _ _ _ _).trans rfl)

theorem shr (x y : Reg) : Statement (.shr x y) :=
  of_mask (decide_eq_true ⟨reg_le x, reg_le y⟩) ((wordXyn_mask_low _ _ _ _).trans rfl)

theorem subn (x y : Reg) : Statement (.subn x y) :=
  of_mask (decide_eq_true ⟨reg_le x, reg_le y⟩) ((wordXyn_mask_low _ _ _ _).trans rfl)

theorem shl (x y : Reg) : Statement (.shl x y) :=
  of_mask (decide_eq_true ⟨reg_le x, reg_le y⟩) ((wordXyn_mask_low _ _ _ _).trans rfl)

theorem drw (x y : Reg) (n : Nibble) : Statement (.drw x y n) :=
  of_mask (decide_eq_true ⟨reg_le x, reg_le y, reg_le n⟩) ((wordXyn_mask _ _ _ _).trans rfl)

theorem skp (x : Reg) : Statement (.skp x) :=
  of_mask (decide_eq_true (reg_le x)) ((wordXkk_mask_low _ _ _).trans rfl)

theorem sknp (x : Reg) : Statement (.sknp x) :=
  of_mask (decide_eq_true (reg_le x)) ((wordXkk_mask_low _ _ _).trans rfl)

theorem ldVxDt (x : Reg) : Statement (.ldVxDt x) :=
  of_mask (decide_eq_true (reg_le x)) ((wordXkk_mask_low _ _ _).trans rfl)

theorem ldVxK (x : Reg) : Statement (.ldVxK x) :=
  of_mask (decide_eq_true (reg_le x)) ((wordXkk_mask_low _ _ _).trans rfl)

theorem ldDtVx (x : Reg) : Statement (.ldDtVx x) :=
  of_mask (decide_eq_true (reg_le x)) ((wordXkk_mask_low _ _ _).trans rfl)

theorem ldStVx (x : Reg) : Statement (.ldStVx x) :=
  of_mask (decide_eq_true (reg_le x)) ((wordXkk_mask_low _ _ _).trans rfl)

theorem addIVx (x : Reg) : Statement (.addIVx x) :=
  of_mask (decide_eq_true (reg_le x)) ((wordXkk_mask_low _ _ _).trans rfl)

theorem ldFVx (x : Reg) : Statement (.ldFVx x) :=
  of_mask (decide_eq_true (reg_le x)) ((wordXkk_mask_low _ _ _).trans rfl)

theorem ldBVx (x : Reg) : Statement (.ldBVx x) :=
  of_mask (decide_eq_true (reg_le x)) ((wordXkk_mask_low _ _ _).trans rfl)

theorem ldMemVx (x : Reg) : Statement (.ldMemVx x) :=
  of_mask (decide_eq_true (reg_le x)) ((wordXkk_mask_low _ _ _).trans rfl)

theorem ldVxMem (x : Reg) : Statement (.ldVxMem x) :=
  of_mask (decide_eq_true (reg_le x)) ((wordXkk_mask_low _ _ _).trans rfl)

end Sys2Proof.Laws.EncodeInRow
end

