-- ==== Sys2Proof/Tests/Slice0.lean ====
section
/-! SUPPORT. Tests: the well-formedness smoke, a word of every instruction written out from the spec, one-step tests whose
results stand in 95_test_vectors.md, and the witnesses of the obligations' hypotheses. -/

namespace Sys2Proof.Tests

open Sys2Proof Sys2Proof.Machine

/-! ## Helpers -/

/-- The answer of one step on `s` with the word `w` placed where it is fetched. -/
def runWord (w : Nat) (s : State) : Result := step (s.withFetchWord 16 w)

/-- A field of the next state, none where there is no next state. -/
def field {α : Type} (f : State → α) : Result → Option α
  | .next t => some (f t)
  | .fault _ => none
  | .refused _ => none

/-- The state after one step of the word `w`, `s` itself where there is none. -/
def after (w : Nat) (s : State) : State :=
  match runWord w s with
  | .next t => t
  | .fault _ => s
  | .refused _ => s

/-- The next state an answer holds, `State.reset` where it holds none. -/
def nextOf : Result → State
  | .next t => t
  | .fault _ => State.reset
  | .refused _ => State.reset

/-- Does an answer hold a next state? -/
def hasNext : Result → Bool
  | .next _ => true
  | .fault _ => false
  | .refused _ => false

/-- The reset state with two registers set. -/
def two (x : Reg) (a : Byte) (y : Reg) (b : Byte) : State := (State.reset.setV x a).setV y b

/-- The reset state with one register and I set. -/
def withI (i : Word) (x : Reg) (a : Byte) : State := (State.reset.setV x a).setI i

/-- The reset state with the stack holding one return address. -/
def oneCall (a : Word) : State := { State.reset with stack := State.reset.stack.set 0 a, sp := 1 }

/-- The reset state with 16 entries in use. -/
def fullStack : State := { State.reset with stack := Vector.replicate 16 0x200, sp := 16 }

/-- The reset state with one pixel set. -/
def withPixel (x y : Nat) : State := State.reset.setFb (State.reset.fb.toggle x y)

/-- A core with a recorded fault. -/
def faulted : State := { State.reset with fault := some ⟨.decodeError, 0x200, 0xFFFF⟩, dt := 5 }

/-- A core in a key-wait for V3. -/
def waiting : State := State.reset.setWait (some 3)

/-! ## Well-formedness: each check refuses an illegal word of its group (R53) -/

theorem test_group0_refuses : legalWord 0x00E1 = false ∧ legalWord 0x0001 = false ∧ legalWord 0x0FFF = false := by decide
theorem test_group5_refuses : legalWord 0x5121 = false ∧ legalWord 0x512F = false := by decide
theorem test_group8_refuses : legalWord 0x8128 = false ∧ legalWord 0x812D = false ∧ legalWord 0x812F = false := by decide
theorem test_group9_refuses : legalWord 0x9128 = false := by decide
theorem test_groupE_refuses : legalWord 0xE19F = false ∧ legalWord 0xE100 = false := by decide
theorem test_groupF_refuses : legalWord 0xF066 = false ∧ legalWord 0xF000 = false ∧ legalWord 0xF0FF = false := by decide
theorem test_legal_words : legalWord 0x0000 = true ∧ legalWord 0x812E = true ∧ legalWord 0xFFFF = false := by decide
theorem test_fields_are_well_formed : (Instr.drw 15 15 15).wellFormed = true ∧ (Instr.jp 0xFFF).wellFormed = true := by
  decide

/-! ## One word of every constructor, written out from R51 (95_test_vectors.md sections 1 and 2.1–2.9) -/

theorem test_decode_fixed :
    decode 0x0000 = .ok .nop ∧ decode 0x00E0 = .ok .cls ∧ decode 0x00EE = .ok .ret := by decide
theorem test_decode_address :
    decode 0x12A4 = .ok (.jp 0x2A4) ∧ decode 0x2300 = .ok (.call 0x300) ∧ decode 0xA123 = .ok (.ldI 0x123) ∧
    decode 0xB301 = .ok (.jpV0 0x301) := by decide
theorem test_decode_immediate :
    decode 0x3342 = .ok (.seImm 3 0x42) ∧ decode 0x4342 = .ok (.sneImm 3 0x42) ∧ decode 0x65C8 = .ok (.ldImm 5 0xC8) ∧
    decode 0x7220 = .ok (.addImm 2 0x20) ∧ decode 0xC10F = .ok (.rnd 1 0x0F) := by decide
theorem test_decode_pair :
    decode 0x5120 = .ok (.seReg 1 2) ∧ decode 0x9120 = .ok (.sneReg 1 2) ∧ decode 0x8120 = .ok (.ldReg 1 2) ∧
    decode 0x8121 = .ok (.or 1 2) ∧ decode 0x8122 = .ok (.and 1 2) ∧ decode 0x8123 = .ok (.xor 1 2) := by decide
theorem test_decode_arithmetic :
    decode 0x8124 = .ok (.addReg 1 2) ∧ decode 0x8F15 = .ok (.sub 15 1) ∧ decode 0x8126 = .ok (.shr 1 2) ∧
    decode 0x8127 = .ok (.subn 1 2) ∧ decode 0x812E = .ok (.shl 1 2) := by decide
theorem test_decode_draw_and_keys :
    decode 0xD125 = .ok (.drw 1 2 5) ∧ decode 0xE49E = .ok (.skp 4) ∧ decode 0xE4A1 = .ok (.sknp 4) := by decide
theorem test_decode_f :
    decode 0xF207 = .ok (.ldVxDt 2) ∧ decode 0xF30A = .ok (.ldVxK 3) ∧ decode 0xF215 = .ok (.ldDtVx 2) ∧
    decode 0xF218 = .ok (.ldStVx 2) ∧ decode 0xF11E = .ok (.addIVx 1) ∧ decode 0xF029 = .ok (.ldFVx 0) ∧
    decode 0xF533 = .ok (.ldBVx 5) ∧ decode 0xF255 = .ok (.ldMemVx 2) ∧ decode 0xFF65 = .ok (.ldVxMem 15) := by decide
theorem test_decode_refuses :
    decode 0x0123 = .error (.unknownOpcode 0x0123) ∧ decode 0x512F = .error (.unknownOpcode 0x512F) ∧
    decode 0x9128 = .error (.unknownOpcode 0x9128) ∧ decode 0x812A = .error (.unknownOpcode 0x812A) ∧
    decode 0xE1FF = .error (.unknownOpcode 0xE1FF) ∧ decode 0xF130 = .error (.unknownOpcode 0xF130) := by decide
theorem test_decode_bytes :
    decodeBytes [0x12, 0xA4, 0xFF] = .ok (.jp 0x2A4, [0xFF]) ∧ decodeBytes [0x12] = .error (.truncated [0x12]) := by decide
theorem test_decode_table_word :
    decodeTableWord 16 0xD125 = some (.drw 1 2 5) ∧ decodeTableWord 16 0xF130 = none := by decide

/-! ## The step cycle (95_test_vectors.md section 2.2) -/

theorem test_fetch_out_of_range :
    field State.fault (step (State.reset.setPc 0xFFF)) = some (some ⟨.fetchOutOfRange, 0xFFF, 0xFFF⟩) := by decide
theorem test_fetch_last_word : field State.pc (runWord 0x1200 (State.reset.setPc 0xFFE)) = some 0x200 := by decide
theorem test_fetch_odd :
    field (fun t => (t.getV 1, t.pc)) (runWord 0x6122 (State.reset.setPc 0x201)) = some (0x22, 0x203) := by decide
theorem test_decode_error :
    field (fun t => (t.fault, t.pc)) (runWord 0xFFFF State.reset) =
      some (some ⟨.decodeError, 0x200, 0xFFFF⟩, 0x200) := by decide
theorem test_wait_gate : step waiting = .next waiting := rfl
theorem test_recorded_fault : step faulted = .fault (.recorded ⟨.decodeError, 0x200, 0xFFFF⟩) := rfl

/-! ## Fixed and address instructions (sections 2.3, 2.4, W17) -/

theorem test_nop : field (fun t => (t.pc, t.v)) (runWord 0x0000 State.reset) = some (0x202, State.reset.v) := by decide
theorem test_cls :
    field (fun t => (t.fb.pix 3 4, t.redraw, t.pc)) (runWord 0x00E0 (withPixel 3 4)) = some (false, true, 0x202) := by decide
theorem test_ret :
    field (fun t => (t.sp.val, t.pc, t.stack[0])) (runWord 0x00EE (oneCall 0x204)) = some (0, 0x206, 0x204) := by decide
theorem test_ret_underflow :
    field State.fault (runWord 0x00EE State.reset) = some (some ⟨.stackUnderflow, 0x200, 0⟩) := by decide
theorem test_jp : field State.pc (runWord 0x12A4 State.reset) = some 0x2A4 := by decide
theorem test_call :
    field (fun t => (t.stack[0], t.sp.val, t.pc)) (runWord 0x2300 (State.reset.setPc 0x202)) =
      some (0x202, 1, 0x300) := by decide
theorem test_call_overflow :
    field (fun t => (t.fault, t.sp.val)) (runWord 0x2300 fullStack) = some (some ⟨.stackOverflow, 0x200, 0⟩, 16) := by decide
theorem test_ldI : field (fun t => (t.i, t.pc)) (runWord 0xA123 State.reset) = some (0x123, 0x202) := by decide
theorem test_jpV0 : field State.pc (runWord 0xB300 (State.reset.setV 0 4)) = some 0x304 := by decide
theorem test_jpV0_no_wrap : field State.pc (runWord 0xBFFF (State.reset.setV 0 0xFF)) = some 0x10FE := by decide

/-! ## Register + immediate (section 2.5) -/

theorem test_seImm :
    field State.pc (runWord 0x3342 (State.reset.setV 3 0x42)) = some 0x204 ∧
    field State.pc (runWord 0x3342 (State.reset.setV 3 0x41)) = some 0x202 := by decide
theorem test_sneImm :
    field State.pc (runWord 0x4342 (State.reset.setV 3 0x42)) = some 0x202 ∧
    field State.pc (runWord 0x4342 (State.reset.setV 3 0x41)) = some 0x204 := by decide
theorem test_ldImm : field (fun t => (t.getV 5, t.pc)) (runWord 0x65C8 State.reset) = some (0xC8, 0x202) := by decide
theorem test_addImm_wraps :
    field (fun t => (t.getV 2, t.getV 15)) (runWord 0x7220 (State.reset.setV 2 0xF0)) = some (0x10, 0) := by decide
theorem test_addImm_vf : field (fun t => t.getV 15) (runWord 0x7F01 (State.reset.setV 15 0xFF)) = some 0x00 := by decide
/-- The drawn byte is free, so the test says where it goes: one draw, ANDed with kk (R79). -/
theorem test_rnd :
    field (fun t => (t.getV 1, t.draws, t.pc)) (runWord 0xC10F State.reset) =
      some (Config.drawByte 0 &&& 0x0F, 1, 0x202) := rfl

/-! ## Register pair (section 2.6, W4–W9); the shifts under each SHIFT_SOURCE -/

theorem test_seReg :
    field State.pc (runWord 0x5120 (two 1 7 2 7)) = some 0x204 ∧
    field State.pc (runWord 0x5120 (two 1 7 2 8)) = some 0x202 := by decide
theorem test_sneReg :
    field State.pc (runWord 0x9120 (two 1 7 2 8)) = some 0x204 ∧ field State.pc (runWord 0x9110 State.reset) = some 0x202 := by
  decide
theorem test_ldReg : field (fun t => t.getV 1) (runWord 0x8120 (State.reset.setV 2 0x33)) = some 0x33 := by decide
theorem test_or :
    field (fun t => (t.getV 1, t.getV 15)) (runWord 0x8121 ((two 1 0x0F 2 0xF0).setV 15 5)) = some (0xFF, 5) := by decide
theorem test_and : field (fun t => t.getV 1) (runWord 0x8122 (two 1 0x3C 2 0x0F)) = some 0x0C := by decide
theorem test_xor : field (fun t => t.getV 1) (runWord 0x8123 (two 1 0x3C 2 0x0F)) = some 0x33 := by decide
theorem test_addReg :
    field (fun t => (t.getV 1, t.getV 15)) (runWord 0x8124 (two 1 200 2 60)) = some (4, 1) := by decide
theorem test_addReg_vf : field (fun t => t.getV 15) (runWord 0x8F14 (two 15 0x80 1 0x90)) = some 1 := by decide
theorem test_sub : field (fun t => (t.getV 1, t.getV 15)) (runWord 0x8125 (two 1 5 2 10)) = some (251, 0) := by decide
theorem test_sub_equal : field (fun t => (t.getV 1, t.getV 15)) (runWord 0x8125 (two 1 7 2 7)) = some (0, 1) := by decide
theorem test_subn : field (fun t => (t.getV 1, t.getV 15)) (runWord 0x8127 (two 1 10 2 5)) = some (0xFB, 0) := by decide
theorem test_subn_no_borrow :
    field (fun t => (t.getV 1, t.getV 15)) (runWord 0x8127 (two 1 5 2 10)) = some (5, 1) := by decide
theorem test_shr :
    field (fun t => (t.getV 1, t.getV 15)) (shrFrom .vx 1 2 (two 1 0x81 2 0x02)) = some (0x40, 1) ∧
    field (fun t => (t.getV 1, t.getV 15)) (shrFrom .vy 1 2 (two 1 0x81 2 0x02)) = some (0x01, 0) := by decide
theorem test_shr_vf : field (fun t => t.getV 15) (shrFrom .vx 15 0 (State.reset.setV 15 0x03)) = some 1 := by decide
theorem test_shl :
    field (fun t => (t.getV 1, t.getV 15)) (shlFrom .vx 1 2 (two 1 0x81 2 0x02)) = some (0x02, 1) ∧
    field (fun t => (t.getV 1, t.getV 15)) (shlFrom .vy 1 2 (two 1 0x81 2 0x82)) = some (0x04, 1) := by decide
theorem test_shl_vf : field (fun t => t.getV 15) (shlFrom .vx 15 0 (State.reset.setV 15 0x40)) = some 0 := by decide

/-! ## Draw (section 2.7, W11) -/

theorem test_drw_collides :
    field (fun t => (t.getV 15, t.fb.pix 0 0, t.fb.pix 1 0, t.fb.pix 1 1)) (runWord 0xD015 (withPixel 0 0)) =
      some (1, false, true, false) := by decide
theorem test_drw_clips :
    field (fun t => (t.getV 15, t.fb.pix 61 0, t.fb.pix 63 0, t.fb.pix 0 0, t.redraw))
      (runWord 0xD011 ((withPixel 0 0).setV 0 61)) = some (0, true, true, true, true) := by decide

/-! ## Keys and the F family (sections 2.8, 2.9) -/

theorem test_skp :
    field State.pc (runWord 0xE49E ((State.reset.setV 4 5).setKey 5 true)) = some 0x204 ∧
    field State.pc (runWord 0xE49E (State.reset.setV 4 5)) = some 0x202 := by decide
theorem test_skp_range :
    field State.fault (runWord 0xE49E (State.reset.setV 4 0x10)) = some (some ⟨.keyOutOfRange, 0x200, 0x10⟩) := by decide
theorem test_sknp :
    field State.pc (runWord 0xE4A1 ((State.reset.setV 4 5).setKey 5 true)) = some 0x202 ∧
    field State.pc (runWord 0xE4A1 (State.reset.setV 4 5)) = some 0x204 := by decide
theorem test_sknp_range :
    field State.fault (runWord 0xE4A1 (State.reset.setV 4 0xFF)) = some (some ⟨.keyOutOfRange, 0x200, 0xFF⟩) := by decide
theorem test_ldVxDt : field (fun t => (t.getV 2, t.dt)) (runWord 0xF207 (State.reset.setDt 0x3C)) = some (0x3C, 0x3C) := by
  decide
theorem test_ldDtVx : field (fun t => (t.dt, t.st)) (runWord 0xF215 (State.reset.setV 2 60)) = some (60, 0) := by decide
theorem test_ldStVx : field (fun t => (t.st, t.dt)) (runWord 0xF218 (State.reset.setV 2 10)) = some (10, 0) := by decide
theorem test_ldVxK :
    field (fun t => (t.wait, t.pc, t.getV 3)) (runWord 0xF30A (State.reset.setPc 0x20A)) = some (some 3, 0x20C, 0) := by decide
theorem test_addIVx : field (fun t => (t.i, t.fault)) (runWord 0xF11E (withI 0xFEF 1 0x10)) = some (0xFFF, none) := by decide
theorem test_addIVx_range :
    field (fun t => (t.i, t.fault)) (runWord 0xF11E (withI 0xFF8 1 0x10)) =
      some (0xFF8, some ⟨.indexOutOfRange, 0x200, 0x1008⟩) := by decide
theorem test_ldFVx : field (fun t => t.i) (runWord 0xF029 (State.reset.setV 0 0x1A)) = some 0x032 := by decide
theorem test_ldBVx :
    field (fun t => (t.mem.read 0xFFD, t.mem.read 0xFFE, t.mem.read 0xFFF, t.fault)) (runWord 0xF533 (withI 0xFFD 5 123)) =
      some (1, 2, 3, none) := by decide
theorem test_ldBVx_range :
    field State.fault (runWord 0xF533 (withI 0xFFE 5 123)) = some (some ⟨.memOutOfRange, 0x200, 0x1000⟩) := by decide
theorem test_ldMemVx : field (fun t => (t.mem.read 0xFFF, t.i)) (runWord 0xF055 (withI 0xFFF 0 9)) = some (9, 0xFFF) := by
  decide
theorem test_ldMemVx_range :
    field State.fault (runWord 0xFF55 (withI 0xFF1 0 9)) = some (some ⟨.memOutOfRange, 0x200, 0x1000⟩) := by decide
theorem test_ldVxMem :
    field (fun t => (t.getV 0, t.getV 14, t.getV 15))
      (runWord 0xFF65 ((withI 0x300 0 9).setMem (State.reset.mem.write 0x30F 0xAB))) = some (0, 0, 0xAB) := by decide
theorem test_ldVxMem_range :
    field State.fault (runWord 0xFF65 (withI 0xFF1 0 9)) = some (some ⟨.memOutOfRange, 0x200, 0x1000⟩) := by decide

/-! ## Host commands (section 3) -/

theorem test_tick : (tickTimers (State.reset.setDt 5)).dt = 4 ∧ (tickTimers (State.reset.setDt 5)).st = 0 := by decide
theorem test_tick_waits : (tickTimers (waiting.setDt 3)).dt = 2 ∧ (tickTimers (waiting.setDt 3)).wait = some 3 := by decide
theorem test_key_down :
    (keyDown 9 waiting).getV 3 = 9 ∧ (keyDown 9 waiting).wait = none ∧ (keyDown 9 waiting).getKey 9 = true := by decide
theorem test_key_up :
    (keyUp 2 (waiting.setKey 2 true)).getKey 2 = false ∧ (keyUp 2 (waiting.setKey 2 true)).wait = some 3 := by decide
theorem test_clear_redraw : (clearRedraw (State.reset.setRedraw true)).redraw = false := by decide
theorem test_load_rom :
    field (fun t => (t.mem.read 0x200, t.mem.read 0x201, t.mem.read 0x202, t.pc)) (loadRom [0x12, 0xA4] State.reset) =
      some (0x12, 0xA4, 0, 0x200) := by decide
theorem test_after_fault :
    tickTimers faulted = faulted ∧ keyDown 1 faulted = faulted ∧ clearRedraw faulted = faulted := by decide
theorem test_reads :
    (withPixel 5 1).readPixel 69 = true ∧ (State.reset.setSt 1).toneOn = true ∧ State.reset.toneOn = false := by decide

/-! ## Witnesses: for every obligation with hypotheses, a concrete state and operands that meet all of them together, one for
each clause, at the ends of its range. -/

/-- EncodeOfDecode; DecodeFollowsOpcodeMap, its two clauses. -/
theorem witness_decoding :
    decode 0x8124 = .ok (.addReg 1 2) ∧ (⟨"SHL", 0x800E, 0xF00F⟩ : OpcodeRow) ∈ opcodeRows ∧
    (0x812E : Word) &&& 0xF00F = 0x800E := by decide

/-- IllegalWordsAreTheSixGroups, both sides. -/
theorem witness_illegal_words :
    decode 0x00EE = .ok .ret ∧ legalWord 0x00EE = true ∧ decode 0x00EF = .error (.unknownOpcode 0x00EF) ∧
    legalWord 0x00EF = false := by decide

/-- StrictGroups: a value on each side of every test. -/
theorem witness_strict_groups :
    decode (wordNnn 0x0 0x000) = .ok .nop ∧ decode (wordNnn 0x0 0x0E0) = .ok .cls ∧ decode (wordNnn 0x0 0x0EE) = .ok .ret ∧
    decode (wordNnn 0x0 0x001) = .error (.unknownOpcode 0x0001) ∧ decode (wordXyn 0x5 1 2 0) = .ok (.seReg 1 2) ∧
    decode (wordXyn 0x5 1 2 1) = .error (.unknownOpcode 0x5121) ∧ decode (wordXyn 0x9 1 2 0) = .ok (.sneReg 1 2) ∧
    decode (wordXyn 0x9 1 2 15) = .error (.unknownOpcode 0x912F) ∧ decode (wordXkk 0xF 1 0x65) = .ok (.ldVxMem 1) ∧
    decode (wordXkk 0xF 1 0x66) = .error (.unknownOpcode 0xF166) := by decide

/-- StepRunsDecodedInstruction, at 0x200 and at the last address that can be fetched from. -/
theorem witness_step_runs :
    let s := State.reset.withFetchWord 16 0x12A4
    let u := (State.reset.setPc 0xFFE).withFetchWord 16 0x12A4
    s.fault = none ∧ s.wait = none ∧ s.pc.toNat ≤ 0x0FFE ∧
    decode (s.mem.read s.pc.toNat ++ s.mem.read (s.pc.toNat + 1)) = .ok (.jp 0x2A4) ∧
    u.fault = none ∧ u.wait = none ∧ u.pc.toNat = 0x0FFE ∧
    decode (u.mem.read u.pc.toNat ++ u.mem.read (u.pc.toNat + 1)) = .ok (.jp 0x2A4) := by decide

/-- StepOnRecordedFault and FaultIsTerminal. -/
theorem witness_recorded_fault : faulted.fault = some ⟨.decodeError, 0x200, 0xFFFF⟩ := rfl

/-- StepDuringKeyWait: the waiting core, in a session too, with a command that is no key_down, and with `pc` out of range. -/
theorem witness_key_wait :
    waiting.fault = none ∧ waiting.wait = some 3 ∧ (waiting.setPc 0x1000).wait = some 3 ∧
    (⟨waiting, false⟩ : Session).core.wait = some 3 ∧ (∀ k, Command.tickTimers ≠ .keyDown k) ∧
    ∀ k, Command.loadRom [0x12] ≠ .keyDown k := by decide

/-- FetchChecksItsBound: both sides of the bound. -/
theorem witness_fetch_bound :
    (State.reset.setPc 0x0FFF).fault = none ∧ (State.reset.setPc 0x0FFF).wait = none ∧
    (State.reset.setPc 0x0FFF).pc.toNat > 0x0FFE ∧ (State.reset.setPc 0x0FFE).pc.toNat ≤ 0x0FFE := by decide

/-- UndecodableWordFaults. -/
theorem witness_undecodable :
    let s := State.reset.withFetchWord 16 0xFFFF
    s.fault = none ∧ s.wait = none ∧ s.fetch = some 0xFFFF ∧ decode 0xFFFF = .error (.unknownOpcode 0xFFFF) := by decide

/-- FaultingStepIsPrecise and FaultKindsHaveTheirCauses: a step that records each kind, from a state with none recorded. -/
theorem witness_step_faults :
    (after 0xFFFF State.reset).fault = some ⟨.decodeError, 0x200, 0xFFFF⟩ ∧
    field State.fault (step (State.reset.setPc 0x1000)) = some (some ⟨.fetchOutOfRange, 0x1000, 0x1000⟩) ∧
    (after 0xD015 (State.reset.setI 0xFFC)).fault = some ⟨.memOutOfRange, 0x200, 0x1000⟩ ∧
    (after 0xF533 (State.reset.setI 0xFFE)).fault = some ⟨.memOutOfRange, 0x200, 0x1000⟩ ∧
    (after 0xFF55 (State.reset.setI 0xFF1)).fault = some ⟨.memOutOfRange, 0x200, 0x1000⟩ ∧
    (after 0xFF65 (State.reset.setI 0xFF1)).fault = some ⟨.memOutOfRange, 0x200, 0x1000⟩ ∧
    (after 0xF11E (withI 0xFFF 1 1)).fault = some ⟨.indexOutOfRange, 0x200, 0x1000⟩ ∧
    (after 0x2300 fullStack).fault = some ⟨.stackOverflow, 0x200, 0⟩ ∧
    (after 0x00EE State.reset).fault = some ⟨.stackUnderflow, 0x200, 0⟩ ∧
    (after 0xE49E (State.reset.setV 4 0x10)).fault = some ⟨.keyOutOfRange, 0x200, 0x10⟩ ∧
    (after 0xE4A1 (State.reset.setV 4 0x10)).fault = some ⟨.keyOutOfRange, 0x200, 0x10⟩ := by decide

/-- Those steps answer the next state named there. -/
theorem witness_step_faults_next :
    runWord 0xFFFF State.reset = .next (after 0xFFFF State.reset) ∧
    runWord 0x00EE State.reset = .next (after 0x00EE State.reset) := ⟨rfl, rfl⟩

/-- LoadRomCopies, LoadRomOnlyOnceAndFirst, FaultKindsHaveTheirCauses: a ROM of the most bytes, and of one more. -/
theorem witness_rom_lengths :
    State.reset.fault = none ∧ (List.replicate 3584 (0xAB : Byte)).length ≤ 3584 ∧
    (List.replicate 3585 (0xAB : Byte)).length > 3584 ∧ Session.reset.fresh = true ∧ Session.reset.core.fault = none :=
  ⟨rfl, Nat.le_of_eq List.length_replicate, Nat.lt_of_lt_of_eq (by decide) List.length_replicate.symm, rfl, rfl⟩

/-- LoadRomOnlyOnceAndFirst, second clause, and CommandsKeepInvariant: commands that answer a next session. -/
theorem witness_second_command :
    Session.reset.perform .tickTimers = .next ⟨tickTimers State.reset, false⟩ ∧ (tickTimers State.reset).fault = none ∧
    Session.reset.perform (.loadRom []) = .next ⟨State.reset, false⟩ := ⟨rfl, rfl, rfl⟩

/-- Inv holds beyond reset: I and pc at their bounds, an entry in use at its bound, and a listed byte. -/
theorem witness_inv :
    Inv { State.reset with
      i := 0xFFF, pc := 0x10FE, sp := 1, stack := State.reset.stack.set 0 0x0FFE, mem := [(0x300, 0x12)] } := by
  refine ⟨by decide, by decide, by decide, by decide, ?_⟩
  intro r h
  cases h

/-- Inv holds with a fault recorded. -/
theorem witness_inv_fault : Inv faulted := by
  refine ⟨by decide, by decide, by decide, by decide, ?_⟩
  intro r h
  cases h
  decide

/-- PcMovesByPolicy: `pc` at the last address that can be fetched from, a skip taken, a jump, a return and a fault. -/
theorem witness_pc_policy :
    (State.reset.setPc 0xFFE).pc.toNat ≤ 0x0FFE ∧ (State.reset.setPc 0xFFE).fault = none ∧
    field State.pc (exec (.seImm 0 0) (State.reset.setPc 0xFFE)) = some 0x1002 ∧
    field State.pc (exec (.jpV0 0xFFF) (State.reset.setV 0 0xFF)) = some 0x10FE ∧
    field (fun t => (t.fault.isSome, t.pc)) (exec .ret State.reset) = some (true, 0x200) ∧
    field (fun t => (t.fault, t.pc)) (exec .ret (oneCall 0x0FFE)) = some (none, 0x1000) := by decide

/-- PcMovesByPolicy: a state with an entry in use meets Inv. -/
theorem witness_pc_policy_inv : Inv (oneCall 0x0FFE) ∧ Inv (State.reset.setPc 0xFFE) := by
  constructor
  · refine ⟨by decide, by decide, by decide, by decide, ?_⟩
    intro r h
    cases h
  · refine ⟨by decide, by decide, by decide, by decide, ?_⟩
    intro r h
    cases h

/-- RegistersKeptOutsideDestinations: a flag writer, DRW and a load, each with a register outside its destinations. -/
theorem witness_registers_kept :
    hasNext (exec (.addReg 1 2) (two 1 200 2 60)) = true ∧ (2 : Reg) ∉ destinations (.addReg 1 2) ∧
    hasNext (exec (.drw 0 1 5) State.reset) = true ∧ (0 : Reg) ∉ destinations (.drw 0 1 5) ∧
    hasNext (exec (.ldVxMem 14) State.reset) = true ∧ (15 : Reg) ∉ destinations (.ldVxMem 14) := by decide

/-- MemoryKeptOutsideStores: the bytes on each side of the stored ones, and a form that stores nothing. -/
theorem witness_memory_kept :
    hasNext (exec (.ldBVx 5) (withI 0xFFD 5 123)) = true ∧ ¬(0xFFD ≤ 0xFFC ∧ 0xFFC < 0xFFD + storeCount (.ldBVx 5)) ∧
    hasNext (exec (.ldMemVx 2) (withI 0x300 0 9)) = true ∧ ¬(0x300 ≤ 0x303 ∧ 0x303 < 0x300 + storeCount (.ldMemVx 2)) ∧
    hasNext (exec .nop State.reset) = true ∧ ¬(0 ≤ 0 ∧ 0 < 0 + storeCount .nop) := by decide

/-- IndexAndStackWriters: each clause. -/
theorem witness_index_and_stack :
    field State.i (exec (.ldI 0x123) State.reset) = some 0x123 ∧
    field (fun t => (t.stack[0], t.sp)) (exec (.call 0x300) State.reset) = some (0x200, 1) ∧
    field State.sp (exec .ret (oneCall 0x204)) = some 0 ∧ (oneCall 0x204).sp = 1 := by decide

/-- TimerScreenKeyWriters: each clause. -/
theorem witness_writers :
    field State.dt (exec (.ldDtVx 2) (State.reset.setV 2 60)) = some 60 ∧
    field State.st (exec (.ldStVx 2) (State.reset.setV 2 10)) = some 10 ∧
    field (fun t => t.fb.pix 0 0) (exec .cls (withPixel 0 0)) = some false ∧ (withPixel 0 0).fb.pix 0 0 = true ∧
    field State.redraw (exec .cls State.reset) = some true ∧
    field State.wait (exec (.ldVxK 3) State.reset) = some (some 3) ∧
    faulted.fault ≠ none ∧ hasNext (exec .nop faulted) = true ∧
    field State.draws (exec (.rnd 1 0x0F) State.reset) = some 1 := by decide

/-- SoundTimerIsWriteOnly and OnlyRndDependsOnDraws: instructions that answer a next state, Fx18 and one that is no RND. -/
theorem witness_sound_and_draws :
    exec (.ldStVx 2) State.reset = .next (nextOf (exec (.ldStVx 2) State.reset)) ∧
    exec (.drw 0 1 5) State.reset = .next (nextOf (exec (.drw 0 1 5) State.reset)) ∧
    ∀ x kk, Instr.drw 0 1 5 ≠ .rnd x kk := ⟨rfl, rfl, fun _ _ h => by cases h⟩

/-- StepKeepsInvariant: a step from a state that meets Inv. -/
theorem witness_step : step (oneCall 0x0FFE) = .next (nextOf (step (oneCall 0x0FFE))) := rfl

/-- RetPopsAndResumes: SP at 0, 1 and 16. -/
theorem witness_ret : State.reset.sp.val = 0 ∧ (oneCall 0x204).sp.val = 0 + 1 ∧ fullStack.sp.val = 15 + 1 := by decide

/-- JpSetsPc, third clause, and JpV0AddsOffset, last clause. -/
theorem witness_jumps :
    exec (.jp 0xFFF) State.reset = .next (nextOf (exec (.jp 0xFFF) State.reset)) ∧ State.reset.fault = none ∧
    State.reset.wait = none ∧ (nextOf (exec (.jpV0 0xFFF) State.reset)).pc.toNat > 0x0FFE := ⟨rfl, rfl, rfl, by decide⟩

/-- CallPushesItsAddress: SP at 16, 15 and 0. -/
theorem witness_call :
    fullStack.sp.val = 16 ∧ ({ fullStack with sp := 15 } : State).sp.val < 16 ∧ State.reset.sp.val < 16 := by decide

/-- ShiftsReportTheBitOut: the source value exists, whichever SHIFT_SOURCE is. -/
theorem witness_shift :
    ∃ a : Byte, a = (match Config.shiftSource with | .vx => (two 1 0x81 2 2).getV 1 | .vy => (two 1 0x81 2 2).getV 2) :=
  ⟨_, rfl⟩

/-- DrwFlipsTheSprite and DrawTwiceRestoresTheScreen: the last I that fits five rows, the first that does not, and n = 0. -/
theorem witness_draw :
    (5 : Nibble).toNat > 0 ∧ (State.reset.setI 0xFFC).i.toNat + (5 : Nibble).toNat - 1 > 0x0FFF ∧
    (State.reset.setI 0xFFB).i.toNat + (5 : Nibble).toNat - 1 ≤ 0x0FFF ∧ (0 : Nibble).toNat = 0 := by decide

/-- DrawTwiceRestoresTheScreen: the state after the first draw meets the inner hypotheses, by registers that hold the same
coordinates. -/
theorem witness_draw_twice :
    let t := nextOf (exec (.drw 0 1 5) (withPixel 5 0))
    t.getV 2 = (withPixel 5 0).getV 0 ∧ t.getV 3 = (withPixel 5 0).getV 1 := by decide

/-- KeyTestsSkip: the last key and the first value that names none. -/
theorem witness_key_tests :
    ((State.reset.setV 4 0x10).getV 4).toNat > 0xF ∧ ((State.reset.setV 4 0xF).getV 4).toNat < 16 := by decide

/-- KeyWaitSuspends, third clause. -/
theorem witness_key_wait_entry :
    State.reset.fault = none ∧ exec (.ldVxK 3) State.reset = .next (nextOf (exec (.ldVxK 3) State.reset)) := ⟨rfl, rfl⟩

/-- AddIndexIsExact: the sums 0xFFF and 0x1000. -/
theorem witness_add_index :
    (withI 0xFEF 1 0x10).i.toNat + ((withI 0xFEF 1 0x10).getV 1).toNat ≤ 0x0FFF ∧
    (withI 0xFF0 1 0x10).i.toNat + ((withI 0xFF0 1 0x10).getV 1).toNat > 0x0FFF := by decide

/-- BcdStoresThreeDigits, DumpStoresRegisters, LoadFillsRegisters, DumpThenLoadRestores: the last I that fits and the next. -/
theorem witness_transfers :
    (State.reset.setI 0xFFD).i.toNat + 2 ≤ 0x0FFF ∧ (State.reset.setI 0xFFE).i.toNat + 2 > 0x0FFF ∧
    (State.reset.setI 0xFF0).i.toNat + (15 : Reg).toNat ≤ 0x0FFF ∧
    (State.reset.setI 0xFF1).i.toNat + (15 : Reg).toNat > 0x0FFF := by decide

/-- DumpThenLoadRestores: cleared registers between the two meet the inner hypotheses. -/
theorem witness_dump_then_load :
    let t := nextOf (exec (.ldMemVx 2) (withI 0x300 0 1))
    (t.setV 0 0).i = t.i ∧ (t.setV 0 0).mem = t.mem ∧ (t.setV 0 0).getV 0 ≠ (withI 0x300 0 1).getV 0 := by decide

/-- StoredCodeIsFetched: each clause at the last I that fits or the longest ROM, and the inner hypotheses by the next state
itself, at the last `pc` that can be fetched from. -/
theorem witness_stored_code :
    let s := (State.reset.setPc 0xFFC).setI 0xFFD
    s.i.toNat + 2 ≤ 0x0FFF ∧ (nextOf (exec (.ldBVx 5) s)).pc.toNat = 0x0FFE ∧
    (State.reset.setI 0xFF0).i.toNat + (15 : Reg).toNat ≤ 0x0FFF ∧
    (nextOf (exec (.ldMemVx 15) (State.reset.setI 0xFF0))).pc.toNat ≤ 0x0FFE ∧ State.reset.fault = none ∧
    ([0x12, 0xA4] : List Byte).length ≤ 3584 ∧ (nextOf (loadRom [0x12, 0xA4] State.reset)).pc.toNat ≤ 0x0FFE := by decide

/-- StoredCodeIsFetched: a store that meets one byte of the next word, and one that meets both. -/
theorem witness_stored_code_bytes :
    field State.fetch (exec (.ldMemVx 0) ((State.reset.setV 0 0x61).setI 0x202)) = some (some 0x6100) ∧
    field State.fetch (exec (.ldMemVx 1) ((two 0 0x12 1 0xA4).setI 0x202)) = some (some 0x12A4) ∧
    field State.fetch (exec (.ldBVx 5) ((State.reset.setV 5 254).setI 0x202)) = some (some 0x0205) := by decide

/-- TickCountsDown, KeyDownResolvesWait (both clauses), KeyUpAndClearRedraw. -/
theorem witness_commands :
    State.reset.fault = none ∧ State.reset.wait = none ∧ waiting.fault = none ∧ waiting.wait = some 3 := by decide

end Sys2Proof.Tests
end

/-! # Proofs about the state: the invariant of every step, and who writes which element of the state (10_state.md). -/

namespace Sys2Proof.Machine

/-! ## What an effect does to each element of the state

Each lemma splits on the effect once; the frames and the invariant cite it by name. -/

/-- Outside its destinations an instruction leaves every register as it was (R12, R20). -/
theorem Effect.getV_eq {i : Instr} {s t : State} {r : Reg} (h : Effect s i t) (hr : r ∉ destinations i) :
    t.getV r = s.getV r := by
  cases h
  case ldImm | addImm | rnd | ldReg | or | and | xor | ldVxDt =>
    have hx : r ≠ _ := List.ne_of_not_mem_cons hr
    simp [State.getV_setV_ne _ _ _ _ hx]
  case addReg | sub | shr | subn | shl =>
    have hx : r ≠ _ := List.ne_of_not_mem_cons hr
    have hvf : r ≠ vf := List.ne_of_not_mem_cons (List.not_mem_of_not_mem_cons hr)
    simp [State.getV_setVFlag, hx, hvf]
  case drw =>
    have hvf : r ≠ vf := List.ne_of_not_mem_cons hr
    simp [State.getV_setV_ne _ _ _ _ hvf]
  case ldVxMem x _ =>
    have hx : ¬r.toNat ≤ x.toNat := fun hle =>
      hr (List.mem_map.mpr ⟨r.toNat, List.mem_range.mpr (Nat.lt_succ_of_le hle), by simp⟩)
    simp [State.getV_loadRegs, hx]
  all_goals rfl

/-- Memory is as it was, or the instruction has stored its `storeCount` bytes from address I, all of them below 0x1000
(R37, R38). -/
theorem Effect.mem_cases {i : Instr} {s t : State} (h : Effect s i t) :
    t.mem = s.mem ∨
      ∃ bs, bs.length = storeCount i ∧ s.i.toNat + bs.length ≤ 4096 ∧ t.mem = s.mem.writeBytes s.i.toNat bs := by
  cases h
  case ldBVx x hfit =>
    exact .inr ⟨_, rfl, by rw [bcdDigits_length]; omega, rfl⟩
  case ldMemVx x hfit =>
    exact .inr ⟨_, s.regsUpTo_length x, by rw [s.regsUpTo_length]; omega, rfl⟩
  all_goals exact .inl rfl

/-- I is as it was, or holds what one of its three writers computes (R21, R73, R105, R106). -/
theorem Effect.i_cases {i : Instr} {s t : State} (h : Effect s i t) :
    t.i = s.i ∨ (∃ nnn, i = .ldI nnn ∧ t.i = addrOperand nnn) ∨
      (∃ x, i = .addIVx x ∧ s.i.toNat + (s.getV x).toNat ≤ 0x0FFF ∧
        t.i = BitVec.ofNat 16 (s.i.toNat + (s.getV x).toNat)) ∨
      ∃ x, i = .ldFVx x ∧ t.i = glyphAddress (s.getV x) := by
  cases h
  case ldI nnn => exact .inr (.inl ⟨nnn, rfl, rfl⟩)
  case addIVx x hle => exact .inr (.inr (.inl ⟨x, rfl, hle, rfl⟩))
  case ldFVx x => exact .inr (.inr (.inr ⟨x, rfl, rfl⟩))
  all_goals exact .inl rfl

/-- A skip instruction advances `pc` by 2 or by 4 (R65). -/
theorem State.skipIf_pc_cases (s : State) (c : Bool) : (s.skipIf c).pc = s.pc + 2 ∨ (s.skipIf c).pc = s.pc + 4 := by
  cases c
  · exact .inl rfl
  · exact .inr rfl

/-- `pc` stays, advances by 2 or 4, or becomes a jump's target or the address after the popped CALL (R64). -/
theorem Effect.pc_cases {i : Instr} {s t : State} (h : Effect s i t) :
    t.pc = s.pc ∨ t.pc = s.pc + 2 ∨ t.pc = s.pc + 4 ∨ (∃ nnn, t.pc = addrOperand nnn) ∨
      (∃ nnn, t.pc = offsetTarget nnn s) ∨ ∃ j : Fin 16, j.val < s.sp.val ∧ t.pc = s.stack[j.val] + 2 := by
  cases h
  case fault => exact .inl rfl
  case jp nnn => exact .inr (.inr (.inr (.inl ⟨nnn, rfl⟩)))
  case call nnn _ => exact .inr (.inr (.inr (.inl ⟨nnn, rfl⟩)))
  case jpV0 nnn => exact .inr (.inr (.inr (.inr (.inl ⟨nnn, rfl⟩))))
  case ret k hk hsp => exact .inr (.inr (.inr (.inr (.inr ⟨⟨k, hk⟩, by simp [hsp], rfl⟩))))
  case seImm | sneImm | seReg | sneReg | skp | sknp => exact .inr ((s.skipIf_pc_cases _).imp_right .inl)
  all_goals exact .inr (.inl rfl)

/-- The stack and SP are as they were, or RET has freed the last entry in use, or CALL has written its address to the next
one (R22, R23, R70, R72). -/
theorem Effect.stack_cases {i : Instr} {s t : State} (h : Effect s i t) :
    (t.stack = s.stack ∧ t.sp = s.sp) ∨ (i = .ret ∧ t.stack = s.stack ∧ t.sp.val + 1 = s.sp.val) ∨
      ∃ nnn, i = .call nnn ∧ ∃ hlt : s.sp.val < 16, t.stack = s.stack.set s.sp.val s.pc hlt ∧
        t.sp.val = s.sp.val + 1 := by
  cases h
  case ret k hk hsp => exact .inr (.inl ⟨rfl, rfl, hsp.symm⟩)
  case call nnn hlt => exact .inr (.inr ⟨nnn, rfl, hlt, rfl, rfl⟩)
  all_goals exact .inl ⟨rfl, rfl⟩

/-- DT is as it was, except after Fx15 (R24). -/
theorem Effect.dt_eq {i : Instr} {s t : State} (h : Effect s i t) : t.dt = s.dt ∨ ∃ x, i = .ldDtVx x := by
  cases h
  case ldDtVx x => exact .inr ⟨x, rfl⟩
  all_goals exact .inl rfl

/-- ST is as it was, except after Fx18 (R24). -/
theorem Effect.st_eq {i : Instr} {s t : State} (h : Effect s i t) : t.st = s.st ∨ ∃ x, i = .ldStVx x := by
  cases h
  case ldStVx x => exact .inr ⟨x, rfl⟩
  all_goals exact .inl rfl

/-- The framebuffer and the redraw flag are as they were, or 00E0 or Dxyn has set the flag (R25, R28). -/
theorem Effect.screen_cases {i : Instr} {s t : State} (h : Effect s i t) :
    (t.fb = s.fb ∧ t.redraw = s.redraw) ∨ (t.redraw = true ∧ (i = .cls ∨ ∃ x y n, i = .drw x y n)) := by
  cases h
  case cls => exact .inr ⟨rfl, .inl rfl⟩
  case drw x y n _ _ _ => exact .inr ⟨rfl, .inr ⟨x, y, n, rfl⟩⟩
  all_goals exact .inl ⟨rfl, rfl⟩

/-- The wait marker is as it was, or names the register of an Fx0A (R26). -/
theorem Effect.wait_eq {i : Instr} {s t : State} (h : Effect s i t) :
    t.wait = s.wait ∨ ∃ x, i = .ldVxK x ∧ t.wait = some x := by
  cases h
  case ldVxK x => exact .inr ⟨x, rfl, rfl⟩
  all_goals exact .inl rfl

/-- No instruction presses or releases a key (R29). -/
theorem Effect.keys_eq {i : Instr} {s t : State} (h : Effect s i t) : t.keys = s.keys := by
  cases h <;> rfl

/-- The draw counter is as it was, except after Cxkk (log 8). -/
theorem Effect.draws_eq {i : Instr} {s t : State} (h : Effect s i t) : t.draws = s.draws ∨ ∃ x kk, i = .rnd x kk := by
  cases h
  case rnd x kk => exact .inr ⟨x, kk, rfl⟩
  all_goals exact .inl rfl

/-- A recorded fault stays recorded (R30). -/
theorem Effect.fault_ne_none {i : Instr} {s t : State} (h : Effect s i t) (hs : s.fault ≠ none) : t.fault ≠ none := by
  rcases h.fault_eq with hf | ⟨kind, info, _, rfl⟩
  · rwa [hf]
  · exact Option.some_ne_none _

/-! ## The invariant -/

/-- No instruction faults as ROM_TOO_LARGE (R110). -/
theorem FaultCause.kind_ne_romTooLarge {s : State} {i : Instr} {kind : FaultKind} {info : Nat}
    (h : FaultCause s i kind info) : kind ≠ .romTooLarge := by
  cases h <;> decide

/-- The fault entry keeps the invariant outside a key-wait (R60, R111). -/
theorem Inv.withFault {s : State} (hs : Inv s) (hw : s.wait = none) {kind : FaultKind} (hk : kind ≠ .romTooLarge)
    (info : Nat) : Inv { s with fault := some ⟨kind, s.pc, info⟩ } where
  memory := hs.memory
  index := hs.index
  pc := hs.pc
  stack := hs.stack
  fault := by
    rintro r ⟨⟩
    exact ⟨rfl, hk, hw⟩

/-- Stores inside 0x000–0xFFF keep the canonical form (R38). -/
theorem Effect.mem_wf {i : Instr} {s t : State} (h : Effect s i t) (hs : s.mem.wf) : t.mem.wf := by
  rcases h.mem_cases with hm | ⟨bs, _, hfit, hm⟩ <;> rw [hm]
  · exact hs
  · exact Memory.wf_writeBytes _ _ _ hs (.inr hfit)

/-- Every value written to I is at most 0xFFF (R21). -/
theorem Effect.i_le {i : Instr} {s t : State} (h : Effect s i t) (hs : s.i.toNat ≤ 0x0FFF) : t.i.toNat ≤ 0x0FFF := by
  rcases h.i_cases with hi | ⟨nnn, _, hi⟩ | ⟨x, _, hle, hi⟩ | ⟨x, _, hi⟩ <;> rw [hi]
  · exact hs
  · have := nnn.isLt
    rw [addrOperand_toNat]
    omega
  · rw [BitVec.toNat_ofNat]
    omega
  · rw [glyphAddress_toNat]
    omega

/-- From a `pc` that can be fetched from no instruction brings `pc` above 0x10FE, which only jump-with-offset reaches
(R19). -/
theorem Effect.pc_le {i : Instr} {s t : State} (h : Effect s i t) (hp : s.pc.toNat ≤ 0x0FFE)
    (hstack : ∀ j : Fin 16, j.val < s.sp.val → s.stack[j.val].toNat ≤ 0x0FFE) : t.pc.toNat ≤ 0x10FE := by
  rcases h.pc_cases with hpc | hpc | hpc | ⟨nnn, hpc⟩ | ⟨nnn, hpc⟩ | ⟨j, hj, hpc⟩ <;> rw [hpc]
  · omega
  · bv_omega
  · bv_omega
  · have := nnn.isLt
    rw [addrOperand_toNat]
    omega
  · have := nnn.isLt
    have := (s.getV 0).isLt
    rw [offsetTarget_toNat]
    omega
  · have := hstack j hj
    bv_omega

/-- CALL pushes an address it was fetched from, so the entries in use stay at most 0xFFE (R22). -/
theorem Effect.stack_le {i : Instr} {s t : State} (h : Effect s i t) (hp : s.pc.toNat ≤ 0x0FFE)
    (hstack : ∀ j : Fin 16, j.val < s.sp.val → s.stack[j.val].toNat ≤ 0x0FFE) :
    ∀ j : Fin 16, j.val < t.sp.val → t.stack[j.val].toNat ≤ 0x0FFE := by
  intro j hj
  rcases h.stack_cases with ⟨hst, hsp⟩ | ⟨_, hst, hsp⟩ | ⟨nnn, _, hlt, hst, hsp⟩
  · simpa only [hst] using hstack j (hsp ▸ hj)
  · simpa only [hst] using hstack j (by omega)
  · simp only [hst, Vector.getElem_set]
    split
    · exact hp
    · exact hstack j (by omega)

/-- An instruction of a running core keeps the invariant. -/
theorem Effect.inv {i : Instr} {s t : State} (h : Effect s i t) (hs : Inv s) (hf : s.fault = none) (hw : s.wait = none)
    (hp : s.pc.toNat ≤ 0x0FFE) : Inv t := by
  rcases h.fault_eq with htf | ⟨kind, info, cause, rfl⟩
  · exact
      { memory := h.mem_wf hs.memory
        index := h.i_le hs.index
        pc := h.pc_le hp hs.stack
        stack := h.stack_le hp hs.stack
        fault := fun r hr => by simp [htf, hf] at hr }
  · exact hs.withFault hw cause.kind_ne_romTooLarge info

/-- Settles O24: a key-wait changes nothing, a fetch or decode fault is the fault entry, and the decoded instruction has one
of the effects of `exec_inversion`, each of which keeps every part of the invariant. -/
theorem stepKeepsInvariant : Obligations.StepKeepsInvariant := by
  intro s t hs h
  rcases step_cases s with ⟨r, _, hstep⟩ | ⟨_, _, hstep⟩ | ⟨_, hw, _, hstep⟩ | ⟨_, hw, _, _, hstep⟩ |
    ⟨i, hf, hw, hp, _, hstep⟩ <;> rw [hstep] at h
  · cases h
  · cases h
    exact hs
  · cases h
    exact hs.withFault hw (by decide) _
  · cases h
    exact hs.withFault hw (by decide) _
  · exact (exec_inversion h).inv hs hf hw hp

/-! ## The frames over all instructions -/

/-- Settles O16, by the effect of each instruction. -/
theorem registersKeptOutsideDestinations : Obligations.RegistersKeptOutsideDestinations :=
  fun _ _ _ _ h hr => (exec_inversion h).getV_eq hr

/-- Settles O18, from what an effect does to I, the stack and SP. -/
theorem indexAndStackWriters : Obligations.IndexAndStackWriters := by
  intro i s t h
  have he := exec_inversion h
  refine ⟨fun hne => ?_, fun hne => ?_, fun hne => ?_⟩
  · rcases he.i_cases with hi | ⟨nnn, hi, _⟩ | ⟨x, hi, _⟩ | ⟨x, hi, _⟩
    · exact absurd hi hne
    · exact .inl ⟨nnn, hi⟩
    · exact .inr (.inl ⟨x, hi⟩)
    · exact .inr (.inr ⟨x, hi⟩)
  · rcases he.stack_cases with ⟨hst, _⟩ | ⟨_, hst, _⟩ | ⟨nnn, hi, _⟩
    · exact absurd hst hne
    · exact absurd hst hne
    · exact ⟨nnn, hi⟩
  · rcases he.stack_cases with ⟨_, hsp⟩ | ⟨hi, _⟩ | ⟨nnn, hi, _⟩
    · exact absurd hsp hne
    · exact .inl hi
    · exact .inr ⟨nnn, hi⟩

/-- Settles O19, from what an effect does to each of these elements. -/
theorem timerScreenKeyWriters : Obligations.TimerScreenKeyWriters := by
  intro i s t h
  have he := exec_inversion h
  exact ⟨he.dt_eq.resolve_left, he.st_eq.resolve_left,
    fun hne => (he.screen_cases.resolve_left fun hsame => hne hsame.1).2,
    fun hne => he.screen_cases.resolve_left fun hsame => hne hsame.2,
    he.wait_eq.resolve_left, he.keys_eq, he.fault_ne_none, he.draws_eq.resolve_left⟩

/-! ## No instruction reads ST -/

/-- A fault has one kind and one info. -/
theorem FaultCause.unique {s : State} {i : Instr} {kind kind' : FaultKind} {info info' : Nat}
    (h : FaultCause s i kind info) (h' : FaultCause s i kind' info') : kind = kind' ∧ info = info' := by
  cases h <;> cases h' <;> exact ⟨rfl, rfl⟩

/-- Where an instruction faults it has no other effect: the condition of the fault excludes the one of its own effect. -/
theorem Effect.eq_of_faultCause {i : Instr} {s t : State} {kind : FaultKind} {info : Nat} (h : Effect s i t)
    (cause : FaultCause s i kind info) : t = { s with fault := some ⟨kind, s.pc, info⟩ } := by
  cases h
  case fault kind' info' cause' =>
    obtain ⟨rfl, rfl⟩ := cause'.unique cause
    rfl
  all_goals cases cause <;> omega

/-- An instruction has one effect only. -/
theorem Effect.unique {i : Instr} {s t u : State} (ht : Effect s i t) (hu : Effect s i u) : t = u := by
  by_cases hc : ∃ kind info, FaultCause s i kind info
  · obtain ⟨kind, info, cause⟩ := hc
    rw [ht.eq_of_faultCause cause, hu.eq_of_faultCause cause]
  · cases ht
    case fault kind info cause => exact absurd ⟨kind, info, cause⟩ hc
    case ret k hk hsp =>
      cases hu
      case fault kind info cause => exact absurd ⟨kind, info, cause⟩ hc
      case ret k' hk' hsp' =>
        obtain rfl : k = k' := by omega
        rfl
    all_goals
      cases hu
      case fault kind info cause => exact absurd ⟨kind, info, cause⟩ hc
      all_goals subst_vars; rfl

/-- An instruction answers exactly its effect. -/
theorem exec_eq_next_iff (i : Instr) (s t : State) : exec i s = .next t ↔ Effect s i t := by
  refine ⟨exec_inversion, fun h => ?_⟩
  obtain ⟨u, hu, he⟩ := exec_effect i s
  rw [hu, he.unique h]

/-- The cause of a fault does not involve ST. -/
theorem FaultCause.setSt {s : State} {i : Instr} {kind : FaultKind} {info : Nat} (h : FaultCause s i kind info) (b : Byte) :
    FaultCause (s.setSt b) i kind info := by
  cases h <;> constructor <;> assumption

/-- Whatever ST holds, an instruction other than Fx18 has the same effect on everything else and keeps ST. -/
theorem Effect.setSt {i : Instr} {s t : State} (h : Effect s i t) (b : Byte) (hi : ∀ x, i ≠ .ldStVx x) :
    Effect (s.setSt b) i (t.setSt b) := by
  cases h
  case fault kind info cause => exact .fault i kind info (cause.setSt b)
  case ldStVx x => exact absurd rfl (hi x)
  all_goals constructor <;> assumption

/-- Settles O20: Fx18 overwrites ST, and any other instruction has the same effect whatever ST holds. -/
theorem soundTimerIsWriteOnly : Obligations.SoundTimerIsWriteOnly := by
  intro i s t b h
  by_cases hi : ∃ x, i = .ldStVx x
  · obtain ⟨x, rfl⟩ := hi
    cases h
    rfl
  · have hne : ∀ x, i ≠ .ldStVx x := fun x hx => hi ⟨x, hx⟩
    have hset : exec i (s.setSt b) = .next (t.setSt b) :=
      (exec_eq_next_iff _ _ _).mpr ((exec_inversion h).setSt b hne)
    split
    · exact absurd rfl (hne _)
    · exact hset

end Sys2Proof.Machine

/-! # Proofs about memory: what a store leaves alone, and what a fetch reads after it (20_memory.md). -/

namespace Sys2Proof.Machine

/-! ## What reads see after each kind of store -/

/-- Writes change no byte outside their range. -/
theorem Memory.read_writeBytes_outside (m : Memory) (base a : Nat) (bs : List Byte)
    (h : ¬(base ≤ a ∧ a < base + bs.length)) : (m.writeBytes base bs).read a = m.read a := by
  rw [Memory.read_writeBytes, dif_neg h]

/-- The three digits of Fx33 as they are read back: hundreds, tens and ones at rising addresses (R107). -/
theorem Memory.read_writeBytes_bcdDigits (m : Memory) (base a : Nat) (v : Byte) :
    (m.writeBytes base (bcdDigits v)).read a =
      if a = base then BitVec.ofNat 8 (v.toNat / 100)
      else if a = base + 1 then BitVec.ofNat 8 (v.toNat / 10 % 10)
      else if a = base + 2 then BitVec.ofNat 8 (v.toNat % 10)
      else m.read a := by
  by_cases ha : base ≤ a ∧ a < base + (bcdDigits v).length
  · obtain ⟨k, rfl⟩ := Nat.exists_eq_add_of_le ha.1
    have hk : k = 0 ∨ k = 1 ∨ k = 2 := by
      rw [bcdDigits_length] at ha
      omega
    rcases hk with rfl | rfl | rfl <;> simp [Memory.read_writeBytes, bcdDigits]
  · rw [Memory.read_writeBytes_outside _ _ _ _ ha]
    rw [bcdDigits_length] at ha
    rw [if_neg (by omega), if_neg (by omega), if_neg (by omega)]

/-- A register by its number. -/
theorem State.getV_ofNat (s : State) (k : Nat) (hk : k < 16) : s.getV (BitVec.ofNat 4 k) = s.v[k] := by
  simp [State.getV, Nat.mod_eq_of_lt hk]

/-- The registers of Fx55 as they are read back: V0 to Vx at rising addresses (R108). -/
theorem Memory.read_writeBytes_regsUpTo (m : Memory) (base a : Nat) (s : State) (x : Reg) :
    (m.writeBytes base (s.regsUpTo x)).read a =
      if base ≤ a ∧ a ≤ base + x.toNat then s.getV (BitVec.ofNat 4 (a - base)) else m.read a := by
  have hlen := s.regsUpTo_length x
  by_cases ha : base ≤ a ∧ a ≤ base + x.toNat
  · have hk : a - base < 16 := by omega
    rw [Memory.read_writeBytes, dif_pos (by omega), if_pos ha, s.regsUpTo_getElem x _ _ hk, s.getV_ofNat _ hk]
  · rw [Memory.read_writeBytes_outside _ _ _ _ (by omega), if_neg ha]

/-! ## The frame of memory -/

/-- Settles O17: an effect leaves memory alone or stores its `storeCount` bytes from address I. -/
theorem memoryKeptOutsideStores : Obligations.MemoryKeptOutsideStores := by
  intro i s t a h ha
  rcases (exec_inversion h).mem_cases with hm | ⟨bs, hlen, _, hm⟩
  · rw [hm]
  · rw [hm, Memory.read_writeBytes_outside _ _ _ _ (hlen ▸ ha)]

/-! ## Stored code is fetched -/

/-- A ROM of at most 3584 bytes is copied to 0x200 when no fault is recorded (R131). -/
theorem loadRom_of_length_le {bytes : List Byte} {s : State} (hf : s.fault = none) (hlen : bytes.length ≤ 3584) :
    loadRom bytes s = .next (s.setMem (s.mem.writeBytes 0x200 bytes)) := by
  rcases loadRom_cases bytes s with ⟨hfault, _⟩ | ⟨_, hlong, _⟩ | ⟨_, _, h⟩
  · simp [hf] at hfault
  · omega
  · exact h

/-- Settles O54: a fetch reads the bytes of memory, and each store says what they are. -/
theorem storedCodeIsFetched : Obligations.StoredCodeIsFetched := by
  refine ⟨fun x s hfit => ?_, fun x s hfit => ?_, fun bytes s hf hlen => ?_⟩
  · exact ⟨_, (exec_eq_next_iff _ _ _).mpr (.ldBVx x hfit), rfl,
      fetchSees_of_read _ _ fun a => s.mem.read_writeBytes_bcdDigits s.i.toNat a (s.getV x)⟩
  · exact ⟨_, (exec_eq_next_iff _ _ _).mpr (.ldMemVx x hfit), rfl,
      fetchSees_of_read _ _ fun a => s.mem.read_writeBytes_regsUpTo s.i.toNat a s x⟩
  · exact ⟨_, loadRom_of_length_le hf hlen, rfl,
      fetchSees_of_read _ _ fun a => s.mem.read_writeBytes 0x200 a bytes⟩

end Sys2Proof.Machine

/-! # Proofs about the encoding: decoder and encoder agree, and what decodes is what the spec lists (30_encoding.md). -/

namespace Sys2Proof

/-! ## Decoding an encoded instruction -/

/-- The decoder reads back every instruction from its word: the fields of a word are the operands it was built from. -/
theorem decode_encode (i : Instr) : decode (encode i) = .ok i := by
  cases i
  case nop | cls | ret => rfl
  case seReg => simp [encode, decode, decodeGroup5]
  case sneReg => simp [encode, decode, decodeGroup9]
  case ldReg | or | and | xor | addReg | sub | shr | subn | shl => simp [encode, decode, decodeGroup8]
  case skp | sknp => simp [encode, decode, decodeGroupE]
  case ldVxDt | ldVxK | ldDtVx | ldStVx | addIVx | ldFVx | ldBVx | ldMemVx | ldVxMem =>
    simp [encode, decode, decodeGroupF]
  all_goals simp [encode, decode]

/-- The two bytes of a word in memory order are the word again (R34). -/
theorem wordOfBytes_highByte_lowByte (w : Word) : wordOfBytes (highByte w) (lowByte w) = w :=
  (BitVec.extractLsb'_append_extractLsb'_eq_extractLsb' rfl).trans BitVec.extractLsb'_eq_self

/-- Settles O2: a word decodes to the instruction it encodes, and the byte decoder puts that word together again. -/
theorem decodeOfEncode : Obligations.DecodeOfEncode :=
  fun i _ => ⟨decode_encode i, by simp [encodeBytes, decodeBytes, wordOfBytes_highByte_lowByte, decode_encode]⟩

/-! ## The fields of a word, as numbers and put together again -/

theorem fieldOp_toNat (w : Word) : (fieldOp w).toNat = w.toNat / 4096 := by
  simp only [fieldOp, BitVec.extractLsb'_toNat, Nat.shiftRight_eq_div_pow]
  omega

theorem fieldN_toNat (w : Word) : (fieldN w).toNat = w.toNat % 16 := by
  simp [fieldN]

theorem fieldKk_toNat (w : Word) : (fieldKk w).toNat = w.toNat % 256 := by
  simp [fieldKk]

theorem wordNnn_eq_of_op {w : Word} {op : Nibble} (hop : (fieldOp w).toNat = op.toNat) : wordNnn op (fieldNnn w) = w :=
  BitVec.eq_of_toNat_eq hop ▸ wordNnn_fields w

theorem wordXkk_eq_of_op {w : Word} {op : Nibble} (hop : (fieldOp w).toNat = op.toNat) :
    wordXkk op (fieldX w) (fieldKk w) = w :=
  BitVec.eq_of_toNat_eq hop ▸ wordXkk_fields w

theorem wordXkk_eq_of_op_kk {w : Word} {op : Nibble} {kk : Byte} (hop : (fieldOp w).toNat = op.toNat)
    (hkk : (fieldKk w).toNat = kk.toNat) : wordXkk op (fieldX w) kk = w :=
  BitVec.eq_of_toNat_eq hkk ▸ wordXkk_eq_of_op hop

theorem wordXyn_eq_of_op {w : Word} {op : Nibble} (hop : (fieldOp w).toNat = op.toNat) :
    wordXyn op (fieldX w) (fieldY w) (fieldN w) = w :=
  BitVec.eq_of_toNat_eq hop ▸ wordXyn_fields w

theorem wordXyn_eq_of_op_n {w : Word} {op n : Nibble} (hop : (fieldOp w).toNat = op.toNat)
    (hn : (fieldN w).toNat = n.toNat) : wordXyn op (fieldX w) (fieldY w) n = w :=
  BitVec.eq_of_toNat_eq hn ▸ wordXyn_eq_of_op hop

/-! ## What the decoder answers -/

/-- A right answer for a word: where the word is legal an instruction whose encoding it is, and where it is not the error
that names it (R49, R53). -/
inductive Answers (w : Word) (legal : Bool) : Except DecodeError Instr → Prop
  | instr (i : Instr) (hencode : encode i = w) (hlegal : legal = true) : Answers w legal (.ok i)
  | unknown (hlegal : legal = false) : Answers w legal (.error (.unknownOpcode w))

theorem decodeGroup0_answers (w : Word) : Answers w (legalGroup0 w.toNat) (decodeGroup0 w) := by
  unfold decodeGroup0
  split
  case h_4 h0 h1 h2 => exact .unknown (by simpa [legalGroup0] using ⟨⟨h0, h1⟩, h2⟩)
  all_goals
    next h => exact .instr _ (BitVec.eq_of_toNat_eq h.symm) (by rw [h]; rfl)

theorem decodeGroup5_answers {w : Word} (hop : (fieldOp w).toNat = 0x5) :
    Answers w (legalGroup59 w.toNat) (decodeGroup5 w) := by
  unfold decodeGroup5 legalGroup59
  rw [← fieldN_toNat]
  split
  case h_1 hn => exact .instr _ (wordXyn_eq_of_op_n hop hn) (by rw [hn]; rfl)
  case h_2 hn => exact .unknown (beq_false_of_ne hn)

theorem decodeGroup8_answers {w : Word} (hop : (fieldOp w).toNat = 0x8) :
    Answers w (legalGroup8 w.toNat) (decodeGroup8 w) := by
  unfold decodeGroup8 legalGroup8
  rw [← fieldN_toNat]
  split
  case h_10 =>
    simp only [imp_false] at *
    exact .unknown (by simp; omega)
  all_goals
    next hn => exact .instr _ (wordXyn_eq_of_op_n hop hn) (by rw [hn]; rfl)

theorem decodeGroup9_answers {w : Word} (hop : (fieldOp w).toNat = 0x9) :
    Answers w (legalGroup59 w.toNat) (decodeGroup9 w) := by
  unfold decodeGroup9 legalGroup59
  rw [← fieldN_toNat]
  split
  case h_1 hn => exact .instr _ (wordXyn_eq_of_op_n hop hn) (by rw [hn]; rfl)
  case h_2 hn => exact .unknown (beq_false_of_ne hn)

theorem decodeGroupE_answers {w : Word} (hop : (fieldOp w).toNat = 0xE) :
    Answers w (legalGroupE w.toNat) (decodeGroupE w) := by
  unfold decodeGroupE legalGroupE
  rw [← fieldKk_toNat]
  split
  case h_3 => exact .unknown (by simp_all)
  all_goals
    next hkk => exact .instr _ (wordXkk_eq_of_op_kk hop hkk) (by rw [hkk]; rfl)

theorem decodeGroupF_answers {w : Word} (hop : (fieldOp w).toNat = 0xF) :
    Answers w (legalGroupF w.toNat) (decodeGroupF w) := by
  unfold decodeGroupF legalGroupF
  rw [← fieldKk_toNat]
  split
  case h_10 => exact .unknown (by simp_all)
  all_goals
    next hkk => exact .instr _ (wordXkk_eq_of_op_kk hop hkk) (by rw [hkk]; rfl)

/-- The decoder answers every word rightly: the group of its top nibble does (R50). -/
theorem decode_answers (w : Word) : Answers w (legalWord w) (decode w) := by
  unfold decode
  split <;> rename_i hop
  case h_17 => -- a top nibble is below 16
    simp only [imp_false] at *
    omega
  all_goals simp only [legalWord, ← fieldOp_toNat, hop]
  case h_1 => exact decodeGroup0_answers w
  case h_6 => exact decodeGroup5_answers hop
  case h_9 => exact decodeGroup8_answers hop
  case h_10 => exact decodeGroup9_answers hop
  case h_15 => exact decodeGroupE_answers hop
  case h_16 => exact decodeGroupF_answers hop
  case h_2 | h_3 | h_11 | h_12 => exact .instr _ (wordNnn_eq_of_op hop) rfl
  case h_4 | h_5 | h_7 | h_8 | h_13 => exact .instr _ (wordXkk_eq_of_op hop) rfl
  case h_14 => exact .instr _ (wordXyn_eq_of_op hop) rfl

/-- Settles O3: the instruction of a right answer is encoded by the word. -/
theorem encodeOfDecode : Obligations.EncodeOfDecode := by
  intro w i h
  have ha := decode_answers w
  rw [h] at ha
  obtain ⟨_, hencode, _⟩ := ha
  exact hencode

/-- Settles O5: a right answer is an instruction where the word is legal, and the error that names the word where not. -/
theorem illegalWordsAreTheSixGroups : Obligations.IllegalWordsAreTheSixGroups := by
  intro w
  have ha := decode_answers w
  generalize decode w = answer at ha ⊢
  cases ha with
  | instr i _ hlegal => simp [hlegal]
  | unknown hlegal => simp [hlegal]

theorem exists_decode_of_legal {w : Word} (h : legalWord w = true) : ∃ i, decode w = .ok i :=
  (illegalWordsAreTheSixGroups w).1.mpr h

theorem decode_of_illegal {w : Word} (h : legalWord w = false) : decode w = .error (.unknownOpcode w) :=
  (illegalWordsAreTheSixGroups w).2.mpr h

/-! ## The opcode map -/

open Laws.EncodeInRow in
/-- The family EncodeInRow, put together over the constructors. -/
theorem encodeInRow (i : Instr) : Statement i := by
  cases i
  exacts [nop, cls, ret, jp _, call _, ldI _, jpV0 _, seImm _ _, sneImm _ _, ldImm _ _, addImm _ _, rnd _ _, seReg _ _,
    sneReg _ _, ldReg _ _, or _ _, and _ _, xor _ _, addReg _ _, sub _ _, shr _ _, subn _ _, shl _ _, drw _ _ _, skp _,
    sknp _, ldVxDt _, ldVxK _, ldDtVx _, ldStVx _, addIVx _, ldFVx _, ldBVx _, ldMemVx _, ldVxMem _]

/-- The word of every instruction matches its row (R51). -/
theorem encode_and_mask (i : Instr) : encode i &&& i.row.mask = i.row.pattern :=
  eq_of_beq (encodeInRow i).2

/-- The map lists the row of every instruction. -/
theorem row_mem_opcodeRows (i : Instr) : i.row ∈ opcodeRows := by
  cases i <;> dsimp only [Instr.row] <;> decide

/-- Words that agree under a mask agree on every field that the mask keeps whole. -/
theorem extractLsb'_eq_of_mask {v w m : Word} {start len : Nat} (h : w &&& m = v &&& m)
    (hm : m.extractLsb' start len = BitVec.allOnes len) : w.extractLsb' start len = v.extractLsb' start len := by
  have hkeep (u : Word) : (u &&& m).extractLsb' start len = u.extractLsb' start len := by
    rw [BitVec.extractLsb'_and, hm, BitVec.and_allOnes]
  rw [← hkeep w, h, hkeep]

theorem eq_of_full_mask {v w : Word} (h : w &&& 0xFFFF = v &&& 0xFFFF) : w = v :=
  BitVec.and_allOnes.symm.trans (h.trans BitVec.and_allOnes)

/-- Every row's mask keeps the top nibble (R50). -/
theorem fieldOp_row_mask (i : Instr) : fieldOp i.row.mask = BitVec.allOnes 4 := by
  cases i <;> simp [Instr.row, fieldOp]

/-- A word that matches the row of `j` decodes to an instruction of that row: it agrees with the word of `j` on the fields
that the mask keeps, and these are the ones the decoder inspects. -/
theorem exists_decode_of_mask {w : Word} (j : Instr) (h : w &&& j.row.mask = j.row.pattern) :
    ∃ i, decode w = .ok i ∧ i.row = j.row := by
  have hmask : w &&& j.row.mask = encode j &&& j.row.mask := h.trans (encode_and_mask j).symm
  have hop : fieldOp w = fieldOp (encode j) := extractLsb'_eq_of_mask hmask (fieldOp_row_mask j)
  cases j
  case nop | cls | ret => exact ⟨_, eq_of_full_mask hmask ▸ decode_encode _, rfl⟩
  case seReg | sneReg | ldReg | or | and | xor | addReg | sub | shr | subn | shl =>
    have hn : fieldN w = fieldN (encode _) := extractLsb'_eq_of_mask (m := 0xF00F) hmask (by decide)
    simp [decode, decodeGroup5, decodeGroup8, decodeGroup9, hop, hn, encode, Instr.row]
  case skp | sknp | ldVxDt | ldVxK | ldDtVx | ldStVx | addIVx | ldFVx | ldBVx | ldMemVx | ldVxMem =>
    have hkk : fieldKk w = fieldKk (encode _) := extractLsb'_eq_of_mask (m := 0xF0FF) hmask (by decide)
    simp [decode, decodeGroupE, decodeGroupF, hop, hkk, encode, Instr.row]
  all_goals simp [decode, hop, encode, Instr.row]

/-- Settles O4: what decodes is the word of its instruction, which matches its row, and a word that matches a row decodes in
that row. -/
theorem decodeFollowsOpcodeMap : Obligations.DecodeFollowsOpcodeMap := by
  refine ⟨rfl, fun w i h => ⟨row_mem_opcodeRows i, ?_⟩, fun r hr w h => ?_⟩
  · rw [← encodeOfDecode w i h]
    exact encode_and_mask i
  · obtain ⟨j, _, rfl⟩ := List.mem_map.mp hr
    exact exists_decode_of_mask j h

/-! ## The strict groups -/

theorem toNat_wordNnn_zero (nnn : Addr) : (wordNnn 0x0 nnn).toNat = nnn.toNat := by
  rw [wordNnn, BitVec.toNat_append]
  simp

theorem legalWord_wordNnn_zero (nnn : Addr) :
    legalWord (wordNnn 0x0 nnn) = decide (nnn = 0x000 ∨ nnn = 0x0E0 ∨ nnn = 0x0EE) := by
  rw [legalWord, ← fieldOp_toNat, fieldOp_wordNnn, toNat_wordNnn_zero]
  simp [legalGroup0, ← BitVec.toNat_inj, Bool.or_assoc, beq_eq_decide]

theorem legalWord_wordXyn {op : Nibble} (hop : op = 0x5 ∨ op = 0x9) (x y : Reg) (n : Nibble) :
    legalWord (wordXyn op x y n) = decide (n = 0) := by
  rcases hop with rfl | rfl <;>
    simp [legalWord, legalGroup59, ← fieldOp_toNat, ← fieldN_toNat, ← BitVec.toNat_inj, beq_eq_decide]

theorem legalWord_wordXkk_fifteen (x : Reg) (kk : Byte) :
    legalWord (wordXkk 0xF x kk) =
      decide (kk ∈ ([0x07, 0x0A, 0x15, 0x18, 0x1E, 0x29, 0x33, 0x55, 0x65] : List Byte)) := by
  simp [legalWord, legalGroupF, ← fieldOp_toNat, ← fieldKk_toNat, ← BitVec.toNat_inj]

/-- Settles O6: in these groups the legal words are the ones listed, and the others are answered with the error. -/
theorem strictGroups : Obligations.StrictGroups := by
  refine ⟨fun nnn => ?_, fun x y n => ?_, fun x y n => ?_, fun x kk => ?_⟩
  · split_ifs with h0 h1 h2
    · exact h0 ▸ decode_encode .nop
    · exact h1 ▸ decode_encode .cls
    · exact h2 ▸ decode_encode .ret
    · exact decode_of_illegal ((legalWord_wordNnn_zero nnn).trans (decide_eq_false (not_or.mpr ⟨h0, not_or.mpr ⟨h1, h2⟩⟩)))
  · split_ifs with hn
    · exact hn ▸ decode_encode (.seReg x y)
    · exact decode_of_illegal ((legalWord_wordXyn (.inl rfl) x y n).trans (decide_eq_false hn))
  · split_ifs with hn
    · exact hn ▸ decode_encode (.sneReg x y)
    · exact decode_of_illegal ((legalWord_wordXyn (.inr rfl) x y n).trans (decide_eq_false hn))
  · split_ifs with hkk
    · exact exists_decode_of_legal ((legalWord_wordXkk_fifteen x kk).trans (decide_eq_true hkk))
    · exact decode_of_illegal ((legalWord_wordXkk_fifteen x kk).trans (decide_eq_false hkk))

end Sys2Proof

/-! # Proofs about the step cycle: the gates before a fetch, the fetch itself, and where `pc` goes (40_step_cycle.md). -/

namespace Sys2Proof.Machine

/-! ## What a step answers, gate by gate -/

theorem step_of_fault {s : State} {r : FaultRecord} (hf : s.fault = some r) : step s = .fault (.recorded r) := by
  simp only [step, stepCommand, hf]

theorem step_of_wait {s : State} {r : Reg} (hf : s.fault = none) (hw : s.wait = some r) : step s = .next s := by
  simp only [step, stepCommand, hf, hw]

theorem step_of_running {s : State} (hf : s.fault = none) (hw : s.wait = none) : step s = fetchDecodeExecute s := by
  simp only [step, stepCommand, hf, hw]

theorem fetchDecodeExecute_of_pc_gt {s : State} (hp : s.pc.toNat > 0x0FFE) :
    fetchDecodeExecute s = raise .fetchOutOfRange s.pc.toNat s := by
  simp only [fetchDecodeExecute, s.fetch_eq_none.mpr hp]

theorem fetchDecodeExecute_of_decode_error {s : State} {w : Word} {e : DecodeError} (hfetch : s.fetch = some w)
    (hd : decode w = .error e) : fetchDecodeExecute s = raise .decodeError w.toNat s := by
  simp only [fetchDecodeExecute, hfetch, hd]

theorem fetchDecodeExecute_of_decode_ok {s : State} {w : Word} {i : Instr} (hfetch : s.fetch = some w)
    (hd : decode w = .ok i) : fetchDecodeExecute s = exec i s := by
  simp only [fetchDecodeExecute, hfetch, hd]

theorem State.fetch_of_pc_le {s : State} (hp : s.pc.toNat ≤ 0x0FFE) : s.fetch = some s.fetchWord :=
  (s.fetch_eq_some _).mpr ⟨hp, rfl⟩

/-- The word of two bytes is big-endian (R34). -/
theorem wordOfBytes_toNat (hi lo : Byte) : (wordOfBytes hi lo).toNat = hi.toNat * 256 + lo.toNat := by
  rw [wordOfBytes, BitVec.toNat_append, ← Nat.shiftLeft_add_eq_or_of_lt lo.isLt, Nat.shiftLeft_eq]

/-- Settles O7: past the gates the step is the cycle, and the cycle is the decoded instruction. -/
theorem stepRunsDecodedInstruction : Obligations.StepRunsDecodedInstruction :=
  fun _ _ hf hw hp hd => (step_of_running hf hw).trans (fetchDecodeExecute_of_decode_ok (State.fetch_of_pc_le hp) hd)

/-- Settles O8: the record is the first gate of a step. -/
theorem stepOnRecordedFault : Obligations.StepOnRecordedFault :=
  fun _ _ hf => ⟨step_of_fault hf, by simp only [stepReply, step_of_fault hf]⟩

/-- Settles O10, by the two answers of the fetch. -/
theorem fetchChecksItsBound : Obligations.FetchChecksItsBound :=
  ⟨fun _ hf hw hp => (step_of_running hf hw).trans (fetchDecodeExecute_of_pc_gt hp),
   fun s hp => ⟨s.fetchWord, State.fetch_of_pc_le hp, wordOfBytes_toNat _ _⟩⟩

/-- Settles O11: the cycle ends in the fault entry where the fetched word does not decode. -/
theorem undecodableWordFaults : Obligations.UndecodableWordFaults :=
  fun _ _ _ hf hw hfetch hd => (step_of_running hf hw).trans (fetchDecodeExecute_of_decode_error hfetch hd)

/-! ## The key-wait -/

/-- A command leaves a session as it was, or its transition gives the next session. -/
theorem Session.after_cases (c : Command) (p : Session) :
    Session.after c p = p ∨ p.perform c = .next (Session.after c p) := by
  unfold Session.after
  split
  · next q hq => exact .inr hq
  · exact .inl rfl
  · exact .inl rfl

theorem loadRom_wait {bytes : List Byte} {s t : State} (h : loadRom bytes s = .next t) : t.wait = s.wait := by
  rcases loadRom_cases bytes s with ⟨_, hl⟩ | ⟨_, _, hl⟩ | ⟨_, _, hl⟩ <;> rw [hl] at h <;> cases h
  · rfl
  · rfl

/-- No command but key_down ends a wait (R60): a step is a no-op, and the others do not write the marker. -/
theorem Session.perform_keeps_wait {c : Command} {p q : Session} {r : Reg} (hf : p.core.fault = none)
    (hw : p.core.wait = some r) (hc : ∀ k, c ≠ .keyDown k) (h : p.perform c = .next q) : q.core.wait = some r := by
  rcases Session.perform_cases c p q h with ⟨bytes, _, hq⟩ | ⟨_, hq⟩ | ⟨_, hq⟩ | ⟨k, hk, _⟩ | ⟨k, _, hq⟩ | ⟨_, hq⟩
  · rw [loadRom_wait hq, hw]
  · rw [step_of_wait hf hw] at hq
    rw [← Host.Outcome.next.inj hq, hw]
  · rw [hq, tickTimers_running _ hf, hw]
  · exact absurd hk (hc k)
  · rw [hq, keyUp_running _ _ hf, State.setKey_wait, hw]
  · rw [hq, clearRedraw_running _ hf, State.setRedraw_wait, hw]

/-- Settles O9: the wait is the second gate of a step, and every command's transition but key_down's keeps it. -/
theorem stepDuringKeyWait : Obligations.StepDuringKeyWait := by
  refine ⟨fun s r hf hw => ⟨step_of_wait hf hw, ?_⟩, fun p r c hf hw hc => ?_⟩
  · simp only [stepReply, step_of_wait hf hw, hf]
  · rcases Session.after_cases c p with hsame | hnext
    · rw [hsame, hw]
    · exact Session.perform_keeps_wait hf hw hc hnext

/-! ## Where `pc` goes -/

/-- A step forward of at most 4 is exact from an address that can be fetched from (R19, R66). -/
theorem toNat_pc_add {a k : Word} (ha : a.toNat ≤ 0x0FFE) (hk : k.toNat ≤ 4) : (a + k).toNat = a.toNat + k.toNat := by
  bv_omega

theorem State.skipIf_pc_toNat {s : State} (hp : s.pc.toNat ≤ 0x0FFE) (c : Bool) :
    (s.skipIf c).pc.toNat = if c = true then s.pc.toNat + 4 else s.pc.toNat + 2 := by
  cases c <;> exact toNat_pc_add hp (by decide)

/-- Settles O15, by the effect of each instruction: the fault entry leaves `pc`, the invariant bounds the popped entry, and
the fetch bound makes every other sum exact. -/
theorem pcMovesByPolicy : Obligations.PcMovesByPolicy := by
  intro i s t hs hp hf h
  cases exec_inversion h
  case fault => exact (if_neg (Option.some_ne_none _)).mpr rfl
  all_goals refine (if_pos hf).mpr ?_
  case jp nnn => exact addrOperand_toNat nnn
  case call nnn _ => exact addrOperand_toNat nnn
  case jpV0 nnn => exact offsetTarget_toNat nnn s
  case ret k hk hsp =>
    simp only [hsp, Nat.add_sub_cancel]
    exact toNat_pc_add (hs.stack ⟨k, hk⟩ (by simp [hsp])) (by decide)
  case seImm | sneImm | seReg | sneReg | skp | sknp => exact (State.skipIf_pc_toNat hp _).trans (by simp)
  all_goals exact toNat_pc_add hp (by decide)

end Sys2Proof.Machine

/-! # Proofs about the fixed family: the words of NOP, CLS and RET and what they do (41_fixed.md). -/

namespace Sys2Proof

/-- The words that decode to an instruction are its encoding alone (R49–R51). -/
theorem decode_eq_ok_iff (w : Word) (i : Instr) : decode w = .ok i ↔ w = encode i := by
  constructor
  · intro h
    exact (encodeOfDecode w i h).symm
  · rintro rfl
    exact decode_encode i

end Sys2Proof

namespace Sys2Proof.Machine

@[simp] theorem Framebuffer.pixelAt_blank (k : Nat) : Framebuffer.blank.pixelAt k = false :=
  Framebuffer.pix_blank _ _

/-- Settles O28: the encoding of NOP is 0x0000, and its one effect moves `pc`. -/
theorem nopOnlyAdvances : Obligations.NopOnlyAdvances :=
  ⟨fun w => decode_eq_ok_iff w .nop, fun s => (exec_eq_next_iff _ s _).mpr .nop⟩

/-- Settles O29: the encoding of CLS is 0x00E0, and its one effect leaves the blank screen, which has no pixel set. -/
theorem clsClearsTheScreen : Obligations.ClsClearsTheScreen := by
  refine ⟨fun w => decode_eq_ok_iff w .cls, fun s => ⟨_, (exec_eq_next_iff _ _ _).mpr .cls, ?_, rfl⟩⟩
  intro k _
  exact Framebuffer.pixelAt_blank k

/-- Settles O30: the encoding of RET is 0x00EE, an empty stack is the cause of the fault, and from any other stack RET pops. -/
theorem retPopsAndResumes : Obligations.RetPopsAndResumes := by
  refine ⟨fun w => decode_eq_ok_iff w .ret, fun s hsp => ?_, fun s k hk hsp => ?_⟩
  · exact (exec_eq_next_iff _ _ _).mpr (.fault _ _ _ (.ret hsp))
  · exact (exec_eq_next_iff _ _ _).mpr (.ret k hk hsp)

end Sys2Proof.Machine

/-! # Proofs about the address family: where JP, CALL and JP V0 go, and what LD I and CALL store (42_address.md). -/

namespace Sys2Proof.Machine

/-- Settles O31: JP has one effect, which writes `pc`, and 0xFFF is above the fetch bound. -/
theorem jpSetsPc : Obligations.JpSetsPc := by
  refine ⟨fun nnn => decode_encode (.jp nnn), fun nnn s => (exec_eq_next_iff _ _ _).mpr (.jp nnn), fun s t hf hw h => ?_⟩
  have hjump : exec (.jp 0xFFF) s = .next { s with pc := 0x0FFF } := (exec_eq_next_iff _ _ _).mpr (.jp 0xFFF)
  cases hjump.symm.trans h
  have htarget : (0x0FFF : Word).toNat > 0x0FFE := by decide
  exact fetchChecksItsBound.1 _ hf hw htarget

/-- Settles O32: a full stack is the cause of the fault, and on any other stack the one effect of CALL is the push of its own
`pc` and the jump. -/
theorem callPushesItsAddress : Obligations.CallPushesItsAddress := by
  refine ⟨fun nnn => decode_encode (.call nnn), fun nnn s hsp => ?_, fun nnn s hsp => ?_⟩
  · exact (exec_eq_next_iff _ _ _).mpr (.fault _ _ _ (.call nnn hsp))
  · exact (exec_eq_next_iff _ _ _).mpr (.call nnn hsp)

/-- Settles O33: the one effect of LD I writes the address operand to `I` and moves `pc`. -/
theorem ldISetsIndex : Obligations.LdISetsIndex :=
  ⟨fun nnn => decode_encode (.ldI nnn), fun nnn _ => (exec_eq_next_iff _ _ _).mpr (.ldI nnn)⟩

/-- Settles O34: the target of JP V0 is the exact sum, and above the fetch bound the next fetch reports it. -/
theorem jpV0AddsOffset : Obligations.JpV0AddsOffset := by
  refine ⟨fun nnn => decode_encode (.jpV0 nnn), fun nnn s => ?_⟩
  have hsum : (s.setPc (offsetTarget nnn s)).pc.toNat = nnn.toNat + (s.getV 0).toNat := offsetTarget_toNat nnn s
  refine ⟨_, (exec_eq_next_iff _ _ _).mpr (.jpV0 nnn), rfl, hsum, fun hf hw hp => ?_⟩
  rw [← hsum]
  exact fetchChecksItsBound.1 _ hf hw hp

end Sys2Proof.Machine

/-! # Proofs about the register instructions with an immediate: skips, loads, the wrapping add and RND
(43_register_immediate.md). -/

namespace Sys2Proof.Machine

/-! ## The draws

As for ST: the causes of the faults and the effects are the same whatever draw comes next. -/

/-- The cause of a fault does not involve the draws. -/
theorem FaultCause.withDraws {s : State} {i : Instr} {kind : FaultKind} {info : Nat} (h : FaultCause s i kind info)
    (n : Nat) : FaultCause { s with draws := n } i kind info := by
  cases h <;> constructor <;> assumption

/-- Whichever draw comes next, an instruction other than Cxkk has the same effect on everything else and keeps the draw
counter. -/
theorem Effect.withDraws {i : Instr} {s t : State} (h : Effect s i t) (n : Nat) (hi : ∀ x kk, i ≠ .rnd x kk) :
    Effect { s with draws := n } i { t with draws := n } := by
  cases h
  case fault kind info cause => exact .fault i kind info (cause.withDraws n)
  case rnd x kk => exact absurd rfl (hi x kk)
  all_goals constructor <;> assumption

/-- Settles O21: an instruction other than RND has the same effect whichever draw comes next. -/
theorem onlyRndDependsOnDraws : Obligations.OnlyRndDependsOnDraws :=
  fun _ _ _ n hi h => (exec_eq_next_iff _ _ _).mpr ((exec_inversion h).withDraws n hi)

/-! ## Compare and skip -/

/-- A skip instruction writes `pc` alone, by its condition (R65). -/
theorem State.skipIf_eq_ite {s : State} {c : Bool} {p : Prop} [Decidable p] (hc : c = true ↔ p) :
    s.skipIf c = { s with pc := if p then s.pc + 4 else s.pc + 2 } := by
  by_cases hp : p
  · rw [hc.mpr hp, if_pos hp]
    rfl
  · rw [Bool.eq_false_of_not_eq_true (mt hc.mp hp), if_neg hp]
    rfl

/-- The answer of an instruction whose effect is a skip. -/
theorem Effect.exec_skip {i : Instr} {s : State} {c : Bool} {p : Prop} [Decidable p] (h : Effect s i (s.skipIf c))
    (hc : c = true ↔ p) : exec i s = .next { s with pc := if p then s.pc + 4 else s.pc + 2 } := by
  rw [← State.skipIf_eq_ite hc]
  exact (exec_eq_next_iff _ _ _).mpr h

/-- Settles O35: the one effect of each is a skip, on equal or on unequal values. -/
theorem compareAndSkip : Obligations.CompareAndSkip :=
  ⟨fun x kk => ⟨decode_encode (.seImm x kk), decode_encode (.sneImm x kk)⟩,
   fun x y => ⟨decode_encode (.seReg x y), decode_encode (.sneReg x y)⟩,
   fun x kk _ => ⟨(Effect.seImm x kk).exec_skip beq_iff_eq, (Effect.sneImm x kk).exec_skip bne_iff_ne⟩,
   fun x y _ => ⟨(Effect.seReg x y).exec_skip beq_iff_eq, (Effect.sneReg x y).exec_skip bne_iff_ne⟩⟩

/-! ## One register written -/

/-- Writing one register and advancing changes that register and `pc` alone. -/
theorem registersBecome_setV_advance (s : State) (x : Reg) (b : Byte) (k : Word) :
    RegistersBecome s ((s.setV x b).advance k) (fun r => if r = x then b else s.getV r) (s.pc + k) :=
  ⟨fun r => s.getV_setV x r b, rfl⟩

/-- Settles O36: the one effect of each load writes Vx and moves `pc`. -/
theorem loadRegister : Obligations.LoadRegister :=
  ⟨fun x kk => decode_encode (.ldImm x kk), fun x y => decode_encode (.ldReg x y),
   fun x kk s => ⟨_, (exec_eq_next_iff _ _ _).mpr (.ldImm x kk), registersBecome_setV_advance s x kk 2⟩,
   fun x y s => ⟨_, (exec_eq_next_iff _ _ _).mpr (.ldReg x y), registersBecome_setV_advance s x (s.getV y) 2⟩⟩

/-- Settles O37: the one effect of ADD Vx, kk writes the wrapped sum to Vx and moves `pc`. -/
theorem addImmediateWraps : Obligations.AddImmediateWraps :=
  ⟨fun x kk => decode_encode (.addImm x kk),
   fun x kk s =>
    ⟨_, (exec_eq_next_iff _ _ _).mpr (.addImm x kk), registersBecome_setV_advance s x (sum8 (s.getV x) kk) 2⟩⟩

/-- No bit outside its mask is left in a masked byte. -/
theorem and_and_not_mask (b kk : Byte) : b &&& kk &&& ~~~kk = 0 := by
  rw [BitVec.and_assoc, BitVec.and_not_self]
  exact BitVec.and_zero

/-- Settles O38: the one effect of RND writes the masked draw to Vx, moves `pc` and counts the draw. -/
theorem rndMasksADraw : Obligations.RndMasksADraw := by
  refine ⟨fun x kk => decode_encode (.rnd x kk), fun x kk s => ?_⟩
  refine ⟨_, (exec_eq_next_iff _ _ _).mpr (.rnd x kk), fun r => s.drawByte.2.getV_setV x r _, ?_, rfl⟩
  rw [State.advance_getV, State.getV_setV_self]
  exact and_and_not_mask _ kk

end Sys2Proof.Machine

/-! # Proofs about the register-pair family: bitwise operations, and the add, the subtractions and the shifts, which write VF
last (44_register_pair.md). -/

namespace Sys2Proof.Machine

/-! ## No flag written -/

/-- Settles O39: the one effect of each writes the bitwise result to Vx and moves `pc`. -/
theorem bitwiseOperations : Obligations.BitwiseOperations :=
  ⟨fun x y => ⟨decode_encode (.or x y), decode_encode (.and x y), decode_encode (.xor x y)⟩,
   fun x y s =>
    ⟨⟨_, (exec_eq_next_iff _ _ _).mpr (.or x y), registersBecome_setV_advance s x (s.getV x ||| s.getV y) 2⟩,
     ⟨_, (exec_eq_next_iff _ _ _).mpr (.and x y), registersBecome_setV_advance s x (s.getV x &&& s.getV y) 2⟩,
     ⟨_, (exec_eq_next_iff _ _ _).mpr (.xor x y), registersBecome_setV_advance s x (s.getV x ^^^ s.getV y) 2⟩⟩⟩

/-! ## The flag written last -/

/-- Writing a register, then VF, and advancing changes those two and `pc` alone; VF holds the flag, also when x = F (C1). -/
theorem registersBecome_setVFlag_advance (s : State) (x : Reg) (b flag : Byte) (k : Word) :
    RegistersBecome s ((s.setVFlag x b flag).advance k)
      (fun r => if r = 15 then flag else if r = x then b else s.getV r) (s.pc + k) :=
  ⟨fun r => s.getV_setVFlag x r b flag, rfl⟩

/-- The answer of an instruction whose effect is a result in Vx and a flag in VF; `b'` and `flag'` are the two as the
statement writes them. -/
theorem Effect.exec_setVFlag {i : Instr} {s : State} {x : Reg} {b b' flag flag' : Byte}
    (h : Effect s i ((s.setVFlag x b flag).advance 2)) (hb : b = b') (hflag : flag = flag') :
    ∃ t, exec i s = .next t ∧
      RegistersBecome s t (fun r => if r = 15 then flag' else if r = x then b' else s.getV r) (s.pc + 2) := by
  subst hb hflag
  exact ⟨_, (exec_eq_next_iff _ _ _).mpr h, registersBecome_setVFlag_advance s x b flag 2⟩

/-- A condition as a flag byte, by the proposition it decides. -/
theorem flagByte_decide (p : Prop) [Decidable p] : flagByte (decide p) = if p then 1 else 0 := by
  simp only [flagByte, decide_eq_true_eq]

/-- Settles O40: the one effect of ADD Vx, Vy writes the wrapped sum, then the carry. -/
theorem addReportsCarry : Obligations.AddReportsCarry :=
  ⟨fun x y => decode_encode (.addReg x y), fun x y _ => (Effect.addReg x y).exec_setVFlag rfl (flagByte_decide _)⟩

/-- Settles O41: the one effect of each writes the wrapped difference, then NOT borrow. -/
theorem subtractReportsNotBorrow : Obligations.SubtractReportsNotBorrow :=
  ⟨fun x y => ⟨decode_encode (.sub x y), decode_encode (.subn x y)⟩,
   fun x y _ => ⟨(Effect.sub x y).exec_setVFlag rfl (flagByte_decide _),
    (Effect.subn x y).exec_setVFlag rfl (flagByte_decide _)⟩⟩

/-! ## The shifts -/

/-- A logical right shift of a byte is a division (R91, R92). -/
theorem ushiftRight_eq_ofNat_div (a : Byte) (k : Nat) : a >>> k = BitVec.ofNat 8 (a.toNat / 2 ^ k) := by
  apply BitVec.eq_of_toNat_eq
  have hquot : a.toNat / 2 ^ k < 2 ^ 8 := (Nat.div_le_self _ _).trans_lt a.isLt
  rw [BitVec.toNat_ushiftRight, Nat.shiftRight_eq_div_pow, BitVec.toNat_ofNat, Nat.mod_eq_of_lt hquot]

/-- The bit that a right shift moves out is the remainder (R91). -/
theorem shrFlag_eq_ofNat_mod (a : Byte) : shrFlag a = BitVec.ofNat 8 (a.toNat % 2) := by
  apply BitVec.eq_of_toNat_eq
  have hone : (1 : Byte).toNat = 1 := rfl
  rw [shrFlag, BitVec.toNat_and, hone, Nat.and_one_is_mod, BitVec.toNat_ofNat]
  omega

/-- Settles O42: the one effect of each writes the shifted source, then the bit out; the source is SHIFT_SOURCE's, whichever
register that selects. -/
theorem shiftsReportTheBitOut : Obligations.ShiftsReportTheBitOut := by
  refine ⟨fun x y => ⟨decode_encode (.shr x y), decode_encode (.shl x y)⟩, fun x y s a ha => ⟨?_, ?_⟩⟩
  · exact (Effect.shr x y a ha).exec_setVFlag (ushiftRight_eq_ofNat_div a 1) (shrFlag_eq_ofNat_mod a)
  · exact (Effect.shl x y a ha).exec_setVFlag rfl (ushiftRight_eq_ofNat_div a 7)

end Sys2Proof.Machine

/-! # Proofs about draw-sprite: which pixels DRW flips, the collision flag, and drawing twice (45_draw.md). -/

namespace Sys2Proof.Machine

/-! ## Pixels and sprites as the statements name them -/

/-- The pixel of index `py · 64 + px` is the one in column `px` of row `py` (R16). -/
theorem Framebuffer.pixelAt_mul_add (f : Framebuffer) {px : Nat} (py : Nat) (hx : px < 64) :
    f.pixelAt (py * 64 + px) = f.pix px py := by
  have hcol : (py * 64 + px) % 64 = px := by omega
  have hrow : (py * 64 + px) / 64 = py := by omega
  exact congrArg₂ f.pix hcol hrow

/-- The rows read from memory cover the pixels of the sprite that lie on the screen (R94, R95). -/
theorem rowsCover_readBytes (m : Memory) (base n cx cy px py : Nat) :
    rowsCover cx cy 0 (m.readBytes base n) px py =
      (decide (px < 64 ∧ py < 32) && spriteCovers m base n cx cy px py) := by
  rw [rowsCover_eq, Memory.readBytes_length, spriteCovers, ← Bool.and_assoc, ← Bool.decide_and]
  simp only [Nat.add_zero]
  by_cases hrow : cy ≤ py ∧ py < cy + n
  · have hlt : py - cy < (m.readBytes base n).length := by
      rw [Memory.readBytes_length]
      omega
    rw [← List.getElem_eq_getD (h := hlt) 0, Memory.readBytes_getElem]
    congr 2
    rw [eq_iff_iff]
    omega
  · rw [decide_eq_false (by omega), decide_eq_false (by omega), Bool.false_and, Bool.false_and]

/-- On the screen DRW flips the pixels that the sprite covers (R95). -/
theorem State.drawSprite_pix (s : State) (x y : Reg) (n : Nibble) {px py : Nat} (hx : px < 64) (hy : py < 32) :
    (s.drawSprite x y n).fb.pix px py =
      (s.fb.pix px py ^^ spriteCovers s.mem s.i.toNat n.toNat (s.getV x).toNat (s.getV y).toNat px py) := by
  rw [State.drawSprite, (drawRows_spec _ _ _ _ _).1, rowsCover_readBytes, decide_eq_true ⟨hx, hy⟩, Bool.true_and]

/-- DRW hits where a pixel of the screen that the sprite covers was set (R96). -/
theorem State.drawSprite_hit (s : State) (x y : Reg) (n : Nibble) :
    (s.drawSprite x y n).hit = true ↔ ∃ px py, px < 64 ∧ py < 32 ∧ s.fb.pix px py = true ∧
      spriteCovers s.mem s.i.toNat n.toNat (s.getV x).toNat (s.getV y).toNat px py = true := by
  rw [State.drawSprite, (drawRows_spec _ _ _ _ _).2, or_iff_right Bool.false_ne_true]
  refine exists_congr fun px => exists_congr fun py => ?_
  rw [rowsCover_readBytes, Bool.and_eq_true, decide_eq_true_eq, and_left_comm, and_assoc]

/-! ## The flag byte -/

/-- A flag byte is 1 or 0. -/
theorem flagByte_eq_one_or_zero (b : Bool) : flagByte b = 1 ∨ flagByte b = 0 := by
  cases b
  · exact .inr rfl
  · exact .inl rfl

/-- A flag byte is 1 exactly for a true condition. -/
theorem flagByte_eq_one_iff (b : Bool) : flagByte b = 1 ↔ b = true := by
  cases b <;> decide

/-- What DRW leaves in VF: the flag byte of the canvas's `hit` (R96). -/
theorem State.drawn_getV_flag (s : State) (c : Canvas) :
    ((((s.setFb c.fb).setV vf (flagByte c.hit)).setRedraw true).advance 2).getV 15 = flagByte c.hit :=
  State.getV_setV_self _ vf _

/-! ## The obligations -/

/-- Settles O43: a byte past 0xFFF is the cause of the fault; else the one effect of DRW leaves the sprite's canvas on the
screen, writes its `hit` to VF, sets redraw and moves `pc`. -/
theorem drwFlipsTheSprite : Obligations.DrwFlipsTheSprite := by
  refine ⟨fun x y n => decode_encode (.drw x y n), fun x y n s hn hgt => ?_, fun x y n s hfit => ?_⟩
  · exact (exec_eq_next_iff _ _ _).mpr (.fault _ _ _ (.drw x y n hn hgt))
  · refine ⟨_, (exec_eq_next_iff _ _ _).mpr (.drw x y n _ rfl hfit), fun px py hx hy => ?_, ?_, ?_, fun r hr => ?_, rfl⟩
    · rw [Framebuffer.pixelAt_mul_add _ _ hx, Framebuffer.pixelAt_mul_add _ _ hx]
      exact s.drawSprite_pix x y n hx hy
    · rw [State.drawn_getV_flag]
      exact flagByte_eq_one_or_zero _
    · rw [State.drawn_getV_flag]
      refine (flagByte_eq_one_iff _).trans ((s.drawSprite_hit x y n).trans ?_)
      refine exists_congr fun px => exists_congr fun py => and_congr_right fun hx => ?_
      rw [Framebuffer.pixelAt_mul_add _ _ hx]
    · exact State.getV_setV_ne _ _ _ _ hr

/-- Settles O44: both draws flip the pixels of the same sprite, and a pixel flipped twice is as before. -/
theorem drawTwiceRestoresTheScreen : Obligations.DrawTwiceRestoresTheScreen := by
  obtain ⟨_, _, hdraw⟩ := drwFlipsTheSprite
  intro x y x' y' n s hfit
  obtain ⟨t, hexec, hpix, _, _, _, ht⟩ := hdraw x y n s hfit
  have hredraw : t.redraw = true := by rw [ht]
  have hmem : t.mem = s.mem := by rw [ht]
  have hi : t.i = s.i := by rw [ht]
  refine ⟨t, hexec, hredraw, fun u hufb humem hui hux huy => ?_⟩
  rw [hmem] at humem
  rw [hi] at hui
  obtain ⟨w, hexec', hpix', _, _, _, hw⟩ := hdraw x' y' n u (by rwa [hui])
  refine ⟨w, hexec', by rw [hw], Framebuffer.ext_pix _ _ fun px py hx hy => ?_⟩
  have hback := hpix' px py hx hy
  rw [hufb, humem, hui, hux, huy, hpix px py hx hy, Bool.xor_assoc, Bool.xor_self, Bool.xor_false] at hback
  rwa [Framebuffer.pixelAt_mul_add _ _ hx, Framebuffer.pixelAt_mul_add _ _ hx] at hback

end Sys2Proof.Machine

/-! # Proofs about the key tests: SKP and SKNP skip by the key that Vx names, or fault where it names none
(46_key_tests.md). -/

namespace Sys2Proof.Machine

/-- A value at most 0xF names the key of its own number (R98). -/
theorem State.getKey_setWidth (s : State) {v : Byte} (h : v.toNat < 16) : s.getKey (v.setWidth 4) = s.keys[v.toNat] := by
  have hkey : (v.setWidth 4).toNat = v.toNat := by rw [BitVec.toNat_setWidth, Nat.mod_eq_of_lt h]
  simp only [State.getKey, hkey]

/-- Settles O45: a value above 0xF is the cause of the fault, and for any other the one effect of each is a skip, on the key
being down or up. -/
theorem keyTestsSkip : Obligations.KeyTestsSkip := by
  refine ⟨fun x => ⟨decode_encode (.skp x), decode_encode (.sknp x)⟩, fun x s hgt => ⟨?_, ?_⟩, fun x s h => ?_⟩
  · exact (exec_eq_next_iff _ _ _).mpr (.fault _ _ _ (.skp x hgt))
  · exact (exec_eq_next_iff _ _ _).mpr (.fault _ _ _ (.sknp x hgt))
  · rw [← s.getKey_setWidth h]
    have hle : (s.getV x).toNat ≤ 0xF := Nat.le_of_lt_succ h
    exact ⟨(Effect.skp x hle).exec_skip Iff.rfl, (Effect.sknp x hle).exec_skip (Bool.not_eq_true' _).to_iff⟩

end Sys2Proof.Machine

/-! # Proofs about the F family: the timers, the key wait, the index register, and the memory transfers (47_f_family.md). -/

namespace Sys2Proof.Machine

/-! ## The timers -/

/-- Settles O46: the one effect of each writes its one element and moves `pc`. -/
theorem timerInstructions : Obligations.TimerInstructions :=
  ⟨fun x => ⟨decode_encode (.ldVxDt x), decode_encode (.ldDtVx x), decode_encode (.ldStVx x)⟩,
   fun x s =>
    ⟨⟨_, (exec_eq_next_iff _ _ _).mpr (.ldVxDt x), registersBecome_setV_advance s x s.dt 2⟩,
     (exec_eq_next_iff _ _ _).mpr (.ldDtVx x), (exec_eq_next_iff _ _ _).mpr (.ldStVx x)⟩⟩

/-! ## The key wait -/

/-- Settles O47: the one effect of LD Vx, K sets the wait and moves `pc`; the wait is a gate of every step, and key_down
resolves it. -/
theorem keyWaitSuspends : Obligations.KeyWaitSuspends := by
  refine ⟨fun x => decode_encode (.ldVxK x), fun x s => (exec_eq_next_iff _ _ _).mpr (.ldVxK x), fun x s t k hf h => ?_⟩
  have ht : t = (s.setWait (some x)).advance 2 := (exec_inversion h).unique (.ldVxK x)
  have hft : t.fault = none := by rwa [ht]
  have hwt : t.wait = some x := by rw [ht, State.advance_wait, State.setWait_wait]
  rw [keyDown_waiting k t x hft hwt]
  refine ⟨step_of_wait hft hwt, ?_, rfl, rfl⟩
  rw [State.setWait_getV, State.getV_setV_self]
  exact BitVec.toNat_setWidth_of_le (by decide)

/-! ## The index register -/

/-- Settles O48: a sum past 0xFFF is the cause of the fault; else the one effect writes the sum, which fits in 16 bits. -/
theorem addIndexIsExact : Obligations.AddIndexIsExact := by
  refine ⟨fun x => decode_encode (.addIVx x), fun x s hgt => ?_, fun x s hle => ?_⟩
  · exact (exec_eq_next_iff _ _ _).mpr (.fault _ _ _ (.addIVx x hgt))
  · refine ⟨_, (exec_eq_next_iff _ _ _).mpr (.addIVx x hle), ?_, rfl⟩
    rw [State.advance_i, State.setI_i, BitVec.toNat_ofNat]
    exact Nat.mod_eq_of_lt (by omega)

/-- Settles O49: the one effect of LD F, Vx writes the glyph's address to `I` and moves `pc`. -/
theorem fontAddress : Obligations.FontAddress :=
  ⟨fun x => decode_encode (.ldFVx x),
   fun x s => ⟨_, (exec_eq_next_iff _ _ _).mpr (.ldFVx x), glyphAddress_toNat (s.getV x), rfl⟩⟩

/-! ## The memory transfers -/

/-- Settles O50: a third byte past 0xFFF is the cause of the fault; else the one effect stores the digits, each of which fits
in a byte. -/
theorem bcdStoresThreeDigits : Obligations.BcdStoresThreeDigits := by
  refine ⟨fun x => decode_encode (.ldBVx x), fun x s hgt => ?_, fun x s hle => ?_⟩
  · exact (exec_eq_next_iff _ _ _).mpr (.fault _ _ _ (.ldBVx x hgt))
  · have hv := (s.getV x).isLt
    refine ⟨_, (exec_eq_next_iff _ _ _).mpr (.ldBVx x hle), ?_, ?_, ?_, fun a ha => ?_, rfl⟩ <;>
      rw [State.advance_mem, State.setMem_mem]
    · rw [Memory.read_writeBytes_bcdDigits, if_pos rfl, BitVec.toNat_ofNat]
      exact Nat.mod_eq_of_lt (by omega)
    · rw [Memory.read_writeBytes_bcdDigits, if_neg (by omega), if_pos rfl, BitVec.toNat_ofNat]
      exact Nat.mod_eq_of_lt (by omega)
    · rw [Memory.read_writeBytes_bcdDigits, if_neg (by omega), if_neg (by omega), if_pos rfl, BitVec.toNat_ofNat]
      exact Nat.mod_eq_of_lt (by omega)
    · exact Memory.read_writeBytes_outside _ _ _ _ ha

/-- The byte of a register among those of Fx55 is the register's value (R108). -/
theorem Memory.read_writeBytes_regsUpTo_reg (m : Memory) (base : Nat) (s : State) {x r : Reg} (hr : r.toNat ≤ x.toNat) :
    (m.writeBytes base (s.regsUpTo x)).read (base + r.toNat) = s.getV r := by
  rw [Memory.read_writeBytes_regsUpTo, if_pos (by omega), Nat.add_sub_cancel_left, BitVec.ofNat_toNat,
    BitVec.setWidth_eq]

/-- Settles O51: a last byte past 0xFFF is the cause of the fault; else the one effect stores V0 to Vx from `I` on. -/
theorem dumpStoresRegisters : Obligations.DumpStoresRegisters := by
  refine ⟨fun x => decode_encode (.ldMemVx x), fun x s hgt => ?_, fun x s hle => ?_⟩
  · exact (exec_eq_next_iff _ _ _).mpr (.fault _ _ _ (.ldMemVx x hgt))
  · refine ⟨_, (exec_eq_next_iff _ _ _).mpr (.ldMemVx x hle), fun r hr => ?_, fun a ha => ?_, rfl⟩
    · exact s.mem.read_writeBytes_regsUpTo_reg s.i.toNat s hr
    · exact s.mem.read_writeBytes_outside _ _ _ (by rwa [s.regsUpTo_length])

/-- Settles O52: a last byte past 0xFFF is the cause of the fault; else the one effect loads V0 to Vx from `I` on. -/
theorem loadFillsRegisters : Obligations.LoadFillsRegisters := by
  refine ⟨fun x => decode_encode (.ldVxMem x), fun x s hgt => ?_, fun x s hle => ?_⟩
  · exact (exec_eq_next_iff _ _ _).mpr (.fault _ _ _ (.ldVxMem x hgt))
  · exact ⟨_, (exec_eq_next_iff _ _ _).mpr (.ldVxMem x hle), fun r => s.getV_loadRegs x r s.i.toNat, rfl⟩

/-- Settles O53: the load reads the bytes that the dump stored, since the dump leaves `I` as it was. -/
theorem dumpThenLoadRestores : Obligations.DumpThenLoadRestores := by
  obtain ⟨_, _, hdump⟩ := dumpStoresRegisters
  obtain ⟨_, _, hload⟩ := loadFillsRegisters
  intro x s hle
  obtain ⟨t, hexec, hstored, _, ht⟩ := hdump x s hle
  have hti : t.i = s.i := by rw [ht]
  refine ⟨t, hexec, fun u hui humem => ?_⟩
  rw [hti] at hui
  obtain ⟨w, hexec', hregs, _⟩ := hload x u (by rwa [hui])
  refine ⟨w, hexec', fun r hr => ?_⟩
  simp only [hregs r, if_pos hr, humem, hui, hstored r hr]

end Sys2Proof.Machine

/-! # Proofs about faults and the host's commands: what a step that faults records, that a record is final, and what each
command does to a running core (60_exceptions.md). -/

namespace Sys2Proof.Machine

/-! ## What a step records -/

/-- Why a step records a fault, with which kind and which info: the fetch (R61), the decoder (R62), or the decoded
instruction's own check (R63). -/
inductive StepFaultCause (s : State) : FaultKind → Nat → Prop
  | fetch (hp : s.pc.toNat > 0x0FFE) : StepFaultCause s .fetchOutOfRange s.pc.toNat
  | undecodable (hp : s.pc.toNat ≤ 0x0FFE) (e : DecodeError) (hd : decode s.fetchWord = .error e) :
    StepFaultCause s .decodeError s.fetchWord.toNat
  | instr (i : Instr) (kind : FaultKind) (info : Nat) (hd : decode s.fetchWord = .ok i) (cause : FaultCause s i kind info) :
    StepFaultCause s kind info

/-- A step that answers from a state without a record leaves none, or is the fault entry for a cause (R111). -/
theorem step_next_cases {s t : State} (hf : s.fault = none) (h : step s = .next t) :
    t.fault = none ∨
      ∃ kind info, StepFaultCause s kind info ∧ t = { s with fault := some ⟨kind, s.pc, info⟩ } := by
  rcases step_cases s with ⟨r, _, hstep⟩ | ⟨_, _, hstep⟩ | ⟨_, _, hp, hstep⟩ | ⟨_, _, hp, ⟨e, hd⟩, hstep⟩ |
    ⟨i, _, _, _, hd, hstep⟩ <;> rw [hstep] at h
  · cases h
  · cases h
    exact .inl hf
  · cases h
    exact .inr ⟨_, _, .fetch hp, rfl⟩
  · cases h
    exact .inr ⟨_, _, .undecodable hp e hd, rfl⟩
  · rcases (exec_inversion h).fault_eq with ht | ⟨kind, info, cause, ht⟩
    · exact .inl (ht.trans hf)
    · exact .inr ⟨kind, info, .instr i kind info hd cause, ht⟩

/-- A step that records a fault is the fault entry, for a cause of the recorded kind and info. -/
theorem step_recorded {s t : State} {r : FaultRecord} (hf : s.fault = none) (h : step s = .next t)
    (ht : t.fault = some r) : StepFaultCause s r.kind r.info ∧ r.pc = s.pc ∧ t = { s with fault := some r } := by
  rcases step_next_cases hf h with hnone | ⟨kind, info, cause, rfl⟩
  · rw [hnone] at ht
    cases ht
  · cases ht
    exact ⟨cause, rfl, rfl⟩

/-- Settles O12, by the five answers of a step: the record, or a next state in the other four. -/
theorem stepAlwaysAnswers : Obligations.StepAlwaysAnswers := by
  intro s
  rcases step_cases s with hrec | ⟨hf, _, hstep⟩ | ⟨hf, _, _, hstep⟩ | ⟨hf, _, _, _, hstep⟩ | ⟨i, hf, _, _, _, hstep⟩
  · exact .inr hrec
  · exact .inl ⟨hf, _, hstep⟩
  · exact .inl ⟨hf, _, hstep⟩
  · exact .inl ⟨hf, _, hstep⟩
  · obtain ⟨t, ht, _⟩ := exec_effect i s
    exact .inl ⟨hf, t, hstep.trans ht⟩

/-- Settles O13: the step was the fault entry, and the host's reply carries the record it left. -/
theorem faultingStepIsPrecise : Obligations.FaultingStepIsPrecise := by
  intro s t r hf h ht
  obtain ⟨_, hpc, hframe⟩ := step_recorded hf h ht
  exact ⟨hframe, hpc, by simp only [stepReply, h, ht]⟩

theorem loadRom_of_length_gt {bytes : List Byte} {s : State} (hf : s.fault = none) (hlen : bytes.length > 3584) :
    loadRom bytes s = .refused (.romTooLarge bytes.length) := by
  rcases loadRom_cases bytes s with ⟨hfault, _⟩ | ⟨_, _, h⟩ | ⟨_, hshort, _⟩
  · simp [hf] at hfault
  · exact h
  · omega

/-- Settles O14, by the cause of the recorded fault: the fetch, the decoder, or the one check that each faulting instruction
makes. -/
theorem faultKindsHaveTheirCauses : Obligations.FaultKindsHaveTheirCauses := by
  refine ⟨rfl, fun s bytes => loadRom_of_length_gt, fun s t ⟨kind, pc, info⟩ hf h ht => ?_⟩
  obtain ⟨cause, _, _⟩ := step_recorded hf h ht
  cases cause with
  | fetch hp => exact ⟨hp, rfl⟩
  | undecodable hp e hd => exact ⟨hp, fun i hi => by simp [hd] at hi, rfl⟩
  | instr i _ _ hd cause =>
    cases cause with
    | ret hsp => exact ⟨hd, hsp, rfl⟩
    | call nnn hsp => exact ⟨nnn, hd, hsp, rfl⟩
    | drw x y n hn hgt => exact ⟨rfl, .inl ⟨x, y, n, hd, hn, hgt⟩⟩
    | skp x hgt => exact ⟨x, .inl hd, hgt, rfl⟩
    | sknp x hgt => exact ⟨x, .inr hd, hgt, rfl⟩
    | addIVx x hgt => exact ⟨x, hd, hgt, rfl⟩
    | ldBVx x hgt => exact ⟨rfl, .inr (.inl ⟨x, hd, hgt⟩)⟩
    | ldMemVx x hgt => exact ⟨rfl, .inr (.inr (.inl ⟨x, hd, hgt⟩))⟩
    | ldVxMem x hgt => exact ⟨rfl, .inr (.inr (.inr ⟨x, hd, hgt⟩))⟩

/-! ## After a fault -/

theorem tickTimers_of_fault {s : State} (hf : s.fault.isSome) : tickTimers s = s := if_pos hf

theorem keyDown_of_fault (k : Key) {s : State} (hf : s.fault.isSome) : keyDown k s = s := if_pos hf

theorem keyUp_of_fault (k : Key) {s : State} (hf : s.fault.isSome) : keyUp k s = s := if_pos hf

theorem clearRedraw_of_fault {s : State} (hf : s.fault.isSome) : clearRedraw s = s := if_pos hf

theorem loadRom_of_fault (bytes : List Byte) {s : State} (hf : s.fault.isSome) : loadRom bytes s = .next s := if_pos hf

/-- Once a fault is recorded the transition of every command leaves the core as it was (R112). -/
theorem Session.perform_core_of_fault {c : Command} {p q : Session} {r : FaultRecord} (hf : p.core.fault = some r)
    (h : p.perform c = .next q) : q.core = p.core := by
  have hsome : p.core.fault.isSome := Option.isSome_of_eq_some hf
  rcases Session.perform_cases c p q h with ⟨bytes, _, hq⟩ | ⟨_, hq⟩ | ⟨_, hq⟩ | ⟨k, _, hq⟩ | ⟨k, _, hq⟩ | ⟨_, hq⟩
  · exact (Host.Outcome.next.inj ((loadRom_of_fault bytes hsome).symm.trans hq)).symm
  · rw [step_of_fault hf] at hq
    cases hq
  · exact hq.trans (tickTimers_of_fault hsome)
  · exact hq.trans (keyDown_of_fault k hsome)
  · exact hq.trans (keyUp_of_fault k hsome)
  · exact hq.trans (clearRedraw_of_fault hsome)

theorem Session.run_core_of_fault (cs : List Command) {p : Session} {r : FaultRecord} (hf : p.core.fault = some r) :
    (Session.run cs p).core = p.core := by
  induction cs generalizing p with
  | nil => rfl
  | cons c cs ih =>
    have hafter : (Session.after c p).core = p.core := by
      rcases Session.after_cases c p with hsame | hnext
      · rw [hsame]
      · exact Session.perform_core_of_fault hf hnext
    exact (ih (hafter ▸ hf)).trans hafter

/-- Settles O60: no command changes the core, so after any list of them a step still finds the record. -/
theorem faultIsTerminal : Obligations.FaultIsTerminal := by
  intro p r cs hf
  rw [Session.run_core_of_fault cs hf]
  exact ⟨rfl, (stepOnRecordedFault _ _ hf).2⟩

/-! ## Each command on a running core -/

/-- Settles O55: tick_timers writes the two timers counted down, and counting down is the truncated subtraction. -/
theorem tickCountsDown : Obligations.TickCountsDown := by
  intro s hf
  rw [tickTimers_running s hf]
  exact ⟨decrement_toNat _, decrement_toNat _, rfl⟩

/-- Settles O56: without a wait key_down is the write of the key, with one also the write of its register and of the
marker. -/
theorem keyDownResolvesWait : Obligations.KeyDownResolvesWait := by
  refine ⟨fun s k hf hw => keyDown_running k s hf hw, fun s k x hf hw => ?_⟩
  rw [keyDown_waiting k s x hf hw]
  exact ⟨fun r => State.getV_setV (s.setKey k true) x r _, rfl⟩

/-- Settles O57: each of the two is one write. -/
theorem keyUpAndClearRedraw : Obligations.KeyUpAndClearRedraw :=
  fun s k hf => ⟨keyUp_running k s hf, clearRedraw_running s hf⟩

end Sys2Proof.Machine

/-! # Proofs about reset, ROM loading and whole runs: the invariant from power-on through every command
(70_reset_and_hazards.md). -/

namespace Sys2Proof.Machine

/-! ## load_rom and its place in a session -/

/-- Settles O58: a longer ROM is refused, and else the bytes read back from 0x200 on are the ROM's. -/
theorem loadRomCopies : Obligations.LoadRomCopies := by
  refine ⟨fun s bytes => loadRom_of_length_gt, fun s bytes hf hlen => ?_⟩
  refine ⟨_, loadRom_of_length_le hf hlen, fun k hk => ?_, fun a => ?_, rfl⟩
  · simp [Memory.read_writeBytes, hk]
  · exact s.mem.read_writeBytes_outside 0x200 a bytes

/-- After a command that took its transition the session is no longer fresh (R132). -/
theorem Session.perform_fresh {c : Command} {p q : Session} (h : p.perform c = .next q) : q.fresh = false := by
  cases c with
  | loadRom bytes =>
    simp only [Session.perform] at h
    split at h
    · exact ((Session.continueWith_eq_next _ _).mp h).2
    · cases h
  | step => exact ((Session.continueWith_eq_next _ _).mp h).2
  | tickTimers | keyDown | keyUp | clearRedraw =>
    cases h
    rfl

/-- Settles O59: a refusal is no transition, so the session stays as it was; a transition ends its freshness, which a
load_rom needs. -/
theorem loadRomOnlyOnceAndFirst : Obligations.LoadRomOnlyOnceAndFirst := by
  refine ⟨fun p bytes hfresh hf hlen => ?_, fun p q c bytes h hf => ?_⟩
  · have hrefused : p.perform (.loadRom bytes) = .refused (.romTooLarge bytes.length) := by
      simp [Session.perform, hfresh, loadRom_of_length_gt hf hlen, Session.continueWith]
    exact ⟨hrefused, by simp only [Session.after, hrefused]⟩
  · simp [Session.perform, Session.perform_fresh h, hf]

/-! ## What reset leaves -/

/-- Writing the default FONT over the reset contents lists nothing (log 7). -/
theorem powerOn_zero_mem : (State.powerOn PowerOn.zero).mem = [] := by decide

/-- Power-on with the default FONT and zero draws is the reset state (R129). -/
theorem powerOn_zero : State.powerOn PowerOn.zero = State.reset := by
  have hmem := powerOn_zero_mem
  simp only [State.powerOn] at hmem ⊢
  rw [hmem]
  rfl

/-- A byte that no cell lists is the font's below 0x050 and 0 from there on (R32). -/
theorem Memory.unlisted_eq (a : Nat) : Memory.unlisted a = if a < 80 then (defaultFont[a]?).getD 0 else 0 := by
  split
  · rfl
  · next h =>
    have hlen : defaultFont.length ≤ a := Nat.le_of_not_lt h
    exact congrArg (·.getD 0) (List.getElem?_eq_none hlen)

theorem State.reset_getKey (k : Key) : State.reset.getKey k = false := Vector.getElem_replicate _

/-- Power-on places the given FONT at 0x000–0x04F (R27). -/
theorem powerOn_read_font (d : PowerOn) {a : Nat} (h : a < 80) : (State.powerOn d).mem.read a = d.font[a] := by
  have hbelow : ¬(0x050 ≤ a ∧ a < 0x050 + (d.ram.take 4016).length) := by omega
  simp only [State.powerOn, Memory.read_writeBytes_outside _ _ _ _ hbelow]
  simp [Memory.read_writeBytes, Config.fontBase, h]

/-- Power-on places the drawn bytes from 0x050 on (R129). -/
theorem powerOn_read_ram (d : PowerOn) {a : Nat} (h : a < d.ram.length) (ha : a < 4016) :
    (State.powerOn d).mem.read (0x050 + a) = d.ram[a] := by
  simp [State.powerOn, Memory.read_writeBytes, h, ha]

/-- Settles O27, element by element; the memory by what an unlisted byte reads as, and for a power-on by its two lists of
writes. -/
theorem resetLeaves : Obligations.ResetLeaves := by
  refine ⟨⟨rfl, rfl, rfl, rfl, fun r => ?_, rfl, rfl, rfl, fun j => ?_, fun k _ => ?_, rfl, State.reset_getKey,
    fun a _ => Memory.unlisted_eq a⟩, powerOn_zero, fun d => ?_⟩
  · exact Vector.getElem_replicate _
  · exact Vector.getElem_replicate _
  · exact Framebuffer.pixelAt_blank k
  · exact ⟨rfl, rfl, rfl, rfl, State.reset_getKey, fun a h => powerOn_read_font d h, fun a h ha => powerOn_read_ram d h ha⟩

/-! ## The invariant from power-on on -/

/-- Both lists of power-on writes stay inside 0x000–0xFFF. -/
theorem powerOn_mem_wf (d : PowerOn) : (State.powerOn d).mem.wf := by
  have hfont := Memory.wf_writeBytes [] Config.fontBase d.font.toList Memory.wf_nil (.inr (by simp [Config.fontBase]))
  refine Memory.wf_writeBytes _ 0x050 _ hfont (.inr ?_)
  rw [List.length_take]
  omega

/-- Settles O23: the writes keep memory canonical, the draw of I has 12 bits, and no entry is in use. -/
theorem invariantHoldsAtPowerOn : Obligations.InvariantHoldsAtPowerOn := fun d =>
  { memory := powerOn_mem_wf d
    index := by
      have hi : (State.powerOn d).i.toNat = d.i.toNat := addrOperand_toNat d.i
      have := d.i.isLt
      omega
    pc := show (0x200 : Word).toNat ≤ 0x10FE by decide
    stack := fun j hj => absurd hj (Nat.not_lt_zero j.val)
    fault := by rintro r ⟨⟩ }

/-- Settles O22: reset is one of the power-ons. -/
theorem invariantHoldsAtReset : Obligations.InvariantHoldsAtReset := by
  have h := invariantHoldsAtPowerOn PowerOn.zero
  rwa [powerOn_zero] at h

/-- Without a record the invariant rests on memory, I, `pc`, the stack and SP alone. -/
theorem Inv.of_eq {s t : State} (hs : Inv s) (hf : t.fault = none) (hmem : t.mem.wf) (hi : t.i = s.i) (hpc : t.pc = s.pc)
    (hstack : t.stack = s.stack) (hsp : t.sp = s.sp) : Inv t where
  memory := hmem
  index := hi ▸ hs.index
  pc := hpc ▸ hs.pc
  stack := by
    rw [hstack, hsp]
    exact hs.stack
  fault := by simp [hf]

/-- load_rom writes inside 0x200–0xFFF (R131). -/
theorem Inv.of_loadRom {s t : State} {bytes : List Byte} (hs : Inv s) (h : loadRom bytes s = .next t) : Inv t := by
  rcases loadRom_cases bytes s with ⟨_, hl⟩ | ⟨_, _, hl⟩ | ⟨hf, hlen, hl⟩ <;> rw [hl] at h <;> cases h
  · exact hs
  · exact hs.of_eq hf (Memory.wf_writeBytes _ 0x200 _ hs.memory (.inr (by omega))) rfl rfl rfl rfl

/-- Settles O25: after a fault nothing changes; on a running core a step is O24, load_rom stays inside memory, and no other
command writes what the invariant speaks of. -/
theorem commandsKeepInvariant : Obligations.CommandsKeepInvariant := by
  intro c p q hs h
  cases hf : p.core.fault with
  | some r =>
    rw [Session.perform_core_of_fault hf h]
    exact hs
  | none =>
    rcases Session.perform_cases c p q h with ⟨bytes, _, hq⟩ | ⟨_, hq⟩ | ⟨_, hq⟩ | ⟨k, _, hq⟩ | ⟨k, _, hq⟩ | ⟨_, hq⟩
    · exact Inv.of_loadRom hs hq
    · exact stepKeepsInvariant _ _ hs hq
    · rw [hq, tickTimers_running _ hf]
      exact hs.of_eq hf hs.memory rfl rfl rfl rfl
    · cases hw : p.core.wait with
      | none =>
        rw [hq, keyDown_running k _ hf hw]
        exact hs.of_eq hf hs.memory rfl rfl rfl rfl
      | some x =>
        rw [hq, keyDown_waiting k _ x hf hw]
        exact hs.of_eq hf hs.memory rfl rfl rfl rfl
    · rw [hq, keyUp_running k _ hf]
      exact hs.of_eq hf hs.memory rfl rfl rfl rfl
    · rw [hq, clearRedraw_running _ hf]
      exact hs.of_eq hf hs.memory rfl rfl rfl rfl

theorem Session.run_inv (cs : List Command) {p : Session} (hs : Inv p.core) : Inv (Session.run cs p).core := by
  induction cs generalizing p with
  | nil => exact hs
  | cons c cs ih =>
    refine ih ?_
    rcases Session.after_cases c p with hsame | hnext
    · rwa [hsame]
    · exact commandsKeepInvariant c p _ hs hnext

/-- Settles O26: power-on meets the invariant and every command keeps it. -/
theorem everyRunKeepsInvariant : Obligations.EveryRunKeepsInvariant :=
  fun d cs => Session.run_inv cs (invariantHoldsAtPowerOn d)

end Sys2Proof.Machine

/-! # The test vectors of the encoding (95_test_vectors.md). -/

namespace Sys2Proof

/-- Settles O1: the ten words are literals, which the decoder evaluates. -/
theorem specWordsDecode : Obligations.SpecWordsDecode := by
  unfold Obligations.SpecWordsDecode
  decide

end Sys2Proof
